-- ==== Sys2Proof/Word.lean ====
section
/-!
DEFINITION. The value types of `feistel_block_cipher` (00_scope.md R7, R10) and the input ports (30_encoding.md R42).
-/

namespace Sys2Proof

/-- A 16-bit unit of the block, of a subkey and of F (R7: WORD_W, SUBKEY_W). -/
abbrev Word := BitVec 16

/-- A 64-bit block, cipher state or result (R7: BLOCK_W). Bit 63 is the most significant (R10, R46). -/
abbrev Block := BitVec 64

/-- The 64-bit master key, an opaque value (R7: KEY_W; R46). -/
abbrev Key := BitVec 64

/-- The four words `[x0, x1, x2, x3]` of a block; `x0` is the most significant (R10, R18). -/
structure Words where
  x0 : Word
  x1 : Word
  x2 : Word
  x3 : Word
  deriving DecidableEq, Repr, Inhabited

/-- The values on the input ports at one rising edge (R42), for a round-count port of `W` bits.
Every input is two-valued (R42), so one bit is a `Bool`. `clk` itself is the step: one edge is one step. -/
structure Ports (W : Nat) where
  /-- `rst`: synchronous reset, active high (R45). -/
  rst : Bool
  /-- `start`: command strobe, active high (R45). -/
  start : Bool
  /-- `op`: `false` (0) encrypt, `true` (1) decrypt (R44). -/
  op : Bool
  /-- `rounds_in`: round count, two's complement (R43). -/
  roundsIn : BitVec W
  /-- `block_in` (R46). -/
  blockIn : Block
  /-- `key_in` (R46). -/
  keyIn : Key
  deriving DecidableEq, Repr, Inhabited

/-- `sint_N(v)`: the two's-complement value of an `N`-bit pattern (R11). -/
def sint {N : Nat} (v : BitVec N) : Int :=
  if v.msb then (v.toNat : Int) - 2 ^ N else (v.toNat : Int)

end Sys2Proof
end

