-- ==== Sys2Proof/Config.lean ====
section
/-!
DEFINITION. The parameter `ROUNDS_W` (00_scope.md R8) and the free values the spec leaves open. Every definition takes
`ROUNDS_W` as an argument `W`, and a machine carries its own in `State.roundsW`; only the default stands here.
A free value is an `opaque` constant with no body: nothing can compute it, so a claim about it holds for every value.
-/

namespace Sys2Proof

/-- The spec's default `ROUNDS_W`, used by every example and by the opcode table (R8). -/
abbrev Config.defaultRoundsW : Nat := 8

/-- `IDX_W = ROUNDS_W - 1`, the width of `idx_r` and `cnt_r` for a given `ROUNDS_W` (R8). -/
abbrev Config.idxW (W : Nat) : Nat := W - 1

/-- `MAX_ROUNDS = 2^(ROUNDS_W-1) - 1` for a given `ROUNDS_W` (R8). -/
def Config.maxRounds (W : Nat) : Nat := 2 ^ (W - 1) - 1

/-- The input ports at edge number `e` when the host's script says nothing about that edge: any two-valued
inputs (R42). DESIGN CHOICE (log 3): a free value at each edge. -/
opaque Config.freePorts (W : Nat) (e : Nat) : Ports W

/-- What `cnt_r - 1` leaves in `cnt_r` when `cnt_r = 0`: the spec states no result, since after a reset a running
datapath has `cnt_r >= 1` (R31, R77). DESIGN CHOICE (log 5): a free value at each edge. -/
opaque Config.freeCount (W : Nat) (e : Nat) : BitVec (W - 1)

/-- What `idx_r + 1` or `idx_r - 1` leaves in `idx_r` when the exact result does not fit `IDX_W` bits: the spec states
no result, since after a reset the index never wraps (R21, R77). DESIGN CHOICE (log 5): a free value at each edge. -/
opaque Config.freeIndex (W : Nat) (e : Nat) : BitVec (W - 1)

/-! The power-up draws of R103: "A model treats each register as an arbitrary draw at power-up" (log 6). -/

/-- Power-up draw of `run_r`. -/
opaque Config.powerUpRun : Bool
/-- Power-up draw of `s_r`. -/
opaque Config.powerUpS : Block
/-- Power-up draw of `key_r`. -/
opaque Config.powerUpKey : Key
/-- Power-up draw of `op_r`. -/
opaque Config.powerUpOp : Bool
/-- Power-up draw of `idx_r`. -/
opaque Config.powerUpIdx (W : Nat) : BitVec (W - 1)
/-- Power-up draw of `cnt_r`. -/
opaque Config.powerUpCnt (W : Nat) : BitVec (W - 1)
/-- Power-up draw of `res_r`. -/
opaque Config.powerUpRes : Block
/-- Power-up draw of `done_r`. -/
opaque Config.powerUpDone : Bool
/-- Power-up draw of `err_r`. -/
opaque Config.powerUpErr : Bool

end Sys2Proof
end

