-- ==== Sys2Proof/Syntax.lean ====
section
/-!
DEFINITION. `Instr`: one constructor per row of spec/opcode_table.json. The first six are commands that `CTRL` selects
at an edge (30_encoding.md R49, R50); the last three are the functions of the combinational sub-blocks (R56). The terms are the same
for every `ROUNDS_W` (00_scope.md R8): which counts and indices a width can express is `Instr.wellFormed`.
-/

namespace Sys2Proof

/-- The commands and functions of the hardware. An input that a command's rule ignores is not an operand of it. -/
inductive Instr where
  /-- RESET (R101): every register to 0. -/
  | reset
  /-- NOP (R83): an idle edge with `start = 0`. -/
  | nop
  /-- ENCRYPT (R80, R81): `n` is the round count, 0 to MAX_ROUNDS (R43); `block`, `key` are `block_in`, `key_in`. -/
  | encrypt (n : Nat) (block : Block) (key : Key)
  /-- DECRYPT (R80, R82): operands as for ENCRYPT. -/
  | decrypt (n : Nat) (block : Block) (key : Key)
  /-- ILLEGAL_ROUNDS (R79): a start whose count `n` is negative (R43). `op` and `n` are in the encoding; the effect uses
  neither. -/
  | illegalRounds (op : Bool) (n : Int)
  /-- ROUND_STEP (R77, R78): a running edge. -/
  | roundStep
  /-- F (R57): `word_transform_f` on the 16-bit input `w`. -/
  | f (w : Word)
  /-- ROUND_KEY (R60): `key_schedule` on a key and a non-negative round index. -/
  | roundKey (key : Key) (i : Nat)
  /-- ROUND (R65): `round_function` on four words and a subkey. -/
  | round (x : Words) (k : Word)
  deriving DecidableEq, Repr

end Sys2Proof
end

