-- ==== Sys2Proof/WellFormed.lean ====
section
/-!
DEFINITION. Which terms of `Instr` the hardware with `ROUNDS_W = W` can express (00_scope.md R8, 30_encoding.md R43, R56).
-/

namespace Sys2Proof

/-- The numbers of an instruction fit its ports: a legal count is at most MAX_ROUNDS, an illegal one is negative and at least
`-2^(ROUNDS_W-1)` (R43), and the index of a ROUND_KEY fits `idx[IDX_W-1:0]` (R56). Nothing else can be ill-formed. -/
def Instr.wellFormed (W : Nat) : Instr → Bool
  | .reset => true
  | .nop => true
  | .encrypt n _ _ => decide (n ≤ Config.maxRounds W)
  | .decrypt n _ _ => decide (n ≤ Config.maxRounds W)
  | .illegalRounds _ n => decide (-(2 ^ (W - 1) : Int) ≤ n) && decide (n < 0)
  | .roundStep => true
  | .f _ => true
  | .roundKey _ i => decide (i < 2 ^ Config.idxW W)
  | .round _ _ => true

end Sys2Proof
end

