-- ==== Sys2Proof/Decode.lean ====
section
/-!
DEFINITION. Command encoding (30_encoding.md R48 to R56) for any `ROUNDS_W = W`: the `CTRL` packing, the decoder (total: every
port value is one command), the encoder, and the opcode table's numbering of an instruction's bits.
-/

namespace Sys2Proof

/-- `CTRL = {rst, start, op, rounds_in}`, `ROUNDS_W + 3` bits (R48). A packing of ports, not a register. -/
def Ports.ctrl {W : Nat} (p : Ports W) : BitVec (W + 3) :=
  BitVec.cons p.rst (BitVec.cons p.start (BitVec.cons p.op p.roundsIn))

/-- The ports that a `CTRL` value and the two data operands beside it stand for (R48). -/
def Ports.ofCtrl {W : Nat} (ctrl : BitVec (W + 3)) (blockIn : Block) (keyIn : Key) : Ports W where
  rst := ctrl.getLsbD (W + 2)
  start := ctrl.getLsbD (W + 1)
  op := ctrl.getLsbD W
  roundsIn := ctrl.setWidth W
  blockIn := blockIn
  keyIn := keyIn

/-- `rounds_in[ROUNDS_W-2:0]`: the count field of a command (R51). -/
def Ports.countField {W : Nat} (p : Ports W) : BitVec (W - 1) :=
  p.roundsIn.setWidth (W - 1)

/-- The rows of the two decode tables (R49, R50). -/
inductive CtrlRow where
  | reset
  | nop
  | encrypt
  | decrypt
  | illegalRounds
  | roundStep
  deriving DecidableEq, Repr

/-- The mask column for `ROUNDS_W = W` (R49, R50). -/
def CtrlRow.mask (W : Nat) : CtrlRow → BitVec (W + 3)
  | .reset => BitVec.ofNat _ (2 ^ (W + 2))
  | .nop => BitVec.ofNat _ (2 ^ (W + 2) + 2 ^ (W + 1))
  | .encrypt => BitVec.ofNat _ (2 ^ (W + 2) + 2 ^ (W + 1) + 2 ^ W + 2 ^ (W - 1))
  | .decrypt => BitVec.ofNat _ (2 ^ (W + 2) + 2 ^ (W + 1) + 2 ^ W + 2 ^ (W - 1))
  | .illegalRounds => BitVec.ofNat _ (2 ^ (W + 2) + 2 ^ (W + 1) + 2 ^ (W - 1))
  | .roundStep => BitVec.ofNat _ (2 ^ (W + 2))

/-- The match column for `ROUNDS_W = W` (R49, R50). -/
def CtrlRow.pattern (W : Nat) : CtrlRow → BitVec (W + 3)
  | .reset => BitVec.ofNat _ (2 ^ (W + 2))
  | .nop => 0
  | .encrypt => BitVec.ofNat _ (2 ^ (W + 1))
  | .decrypt => BitVec.ofNat _ (2 ^ (W + 1) + 2 ^ W)
  | .illegalRounds => BitVec.ofNat _ (2 ^ (W + 1) + 2 ^ (W - 1))
  | .roundStep => 0

/-- Whether a row stands in the table for `run_r = run` (R49 idle, R50 running). -/
def CtrlRow.listedWhen (run : Bool) : CtrlRow → Bool
  | .reset => true
  | .nop => !run
  | .encrypt => !run
  | .decrypt => !run
  | .illegalRounds => !run
  | .roundStep => run

/-- The row that an edge's inputs select, by the conditions of R49 (idle) and R50 (running), in the priority of R92. -/
def Ports.row {W : Nat} (p : Ports W) (run : Bool) : CtrlRow :=
  if p.rst then .reset
  else if run then .roundStep
  else if p.start then
    if p.roundsIn.msb then .illegalRounds
    else if p.op then .decrypt
    else .encrypt
  else .nop

/-- The instruction of an edge with `run_r = run` (R49, R50), its operands assembled as R51 says. Total: R52 leaves no
reserved value. The three internal functions are never the result (R56). -/
def decode {W : Nat} (run : Bool) (p : Ports W) : Instr :=
  match p.row run with
  | .reset => .reset
  | .nop => .nop
  | .encrypt => .encrypt p.countField.toNat p.blockIn p.keyIn
  | .decrypt => .decrypt p.countField.toNat p.blockIn p.keyIn
  | .illegalRounds => .illegalRounds p.op (sint p.roundsIn)
  | .roundStep => .roundStep

/-- All input ports driven 0: the script line `NOP` (R54). -/
def Ports.idle (W : Nat) : Ports W where
  rst := false
  start := false
  op := false
  roundsIn := 0
  blockIn := 0
  keyIn := 0

/-- The ports of an instruction that `CTRL` selects. `none` where there are none: a count that does not fit `rounds_in` (R43),
and the three internal functions, which have no encoding (R56). An input the command ignores is driven 0, as the script lines
`RST` and `NOP` do (R54; log 9). -/
def encode (W : Nat) (i : Instr) : Option (Ports W) :=
  if i.wellFormed W then
    match i with
    | .reset => some { Ports.idle W with rst := true }
    | .nop => some (Ports.idle W)
    | .encrypt n block key =>
        some { Ports.idle W with start := true, roundsIn := BitVec.ofNat W n, blockIn := block, keyIn := key }
    | .decrypt n block key =>
        some { Ports.idle W with start := true, op := true, roundsIn := BitVec.ofNat W n, blockIn := block, keyIn := key }
    | .illegalRounds op n => some { Ports.idle W with start := true, op := op, roundsIn := BitVec.ofInt W n }
    | .roundStep => some (Ports.idle W)
    | .f _ => none
    | .roundKey _ _ => none
    | .round _ _ => none
  else none

/-- The decode-table row of an instruction; `none` for the internal functions (R56). -/
def Instr.row : Instr → Option CtrlRow
  | .reset => some .reset
  | .nop => some .nop
  | .encrypt _ _ _ => some .encrypt
  | .decrypt _ _ _ => some .decrypt
  | .illegalRounds _ _ => some .illegalRounds
  | .roundStep => some .roundStep
  | .f _ => none
  | .roundKey _ _ => none
  | .round _ _ => none

/-! ## The opcode table's bits (log 10)
`CTRL` fills the low bits of the first whole bytes; `block_in` and `key_in` follow it. -/

/-- Why a number is no instruction in that numbering. -/
inductive EncodingError where
  /-- A bit between `CTRL` and the next whole byte is 1: the hardware has no such input. -/
  | bitAboveCtrl
  /-- A bit above the last bit of `key_in` is 1. -/
  | tooLong
  deriving DecidableEq, Repr

/-- The bits of `CTRL`, in whole bytes (16 for `ROUNDS_W = 8`). -/
def ctrlBits (W : Nat) : Nat := 8 * ((W + 3 + 7) / 8)

/-- The ports of an instruction given as a number of `nbits` bits, any bit above them 0. -/
def portsOfTableBits (W nbits w : Nat) : Except EncodingError (Ports W) :=
  let v := w % 2 ^ nbits
  if v % 2 ^ ctrlBits W ≥ 2 ^ (W + 3) then .error .bitAboveCtrl
  else if v ≥ 2 ^ (ctrlBits W + 128) then .error .tooLong
  else
    .ok (Ports.ofCtrl (BitVec.ofNat _ v) (BitVec.ofNat _ (v / 2 ^ ctrlBits W)) (BitVec.ofNat _ (v / 2 ^ (ctrlBits W + 64))))

/-- The instruction the decoder for `ROUNDS_W = W` reads from those bits at an idle edge, the state after reset (R101). -/
def decodeTableBits (W nbits w : Nat) : Option Instr :=
  match portsOfTableBits W nbits w with
  | .ok p => some (decode false p)
  | .error _ => none

/-- The same at the opcode table's own width, the default (R8). -/
def decodeTableWord (nbits w : Nat) : Option Instr := decodeTableBits Config.defaultRoundsW nbits w

end Sys2Proof
end

