-- ==== Sys2Proof/Machine/State.lean ====
section
/-!
DEFINITION. The state: the nine registers of 10_state.md R16, the parameter `ROUNDS_W` their widths depend on (00_scope.md R8),
and three parts of the model's own that are not hardware (the host's script, the edge number, the sub-block read-out: log 2, 4, 7).
-/

namespace Sys2Proof.Machine

/-- The datapath registers of R16, for `ROUNDS_W = W`. The hardware has no other state (R15, R32). -/
structure Registers (W : Nat) where
  /-- `run_r`: `false` idle, `true` running (R17). -/
  runR : Bool
  /-- `s_r`: cipher state `[x0, x1, x2, x3]` (R18). -/
  sR : Block
  /-- `key_r`: master key of the command (R19). -/
  keyR : Key
  /-- `op_r`: `false` encrypt, `true` decrypt (R20). -/
  opR : Bool
  /-- `idx_r`: index of the round the next running edge performs (R21). -/
  idxR : BitVec (W - 1)
  /-- `cnt_r`: rounds still to perform (R22). -/
  cntR : BitVec (W - 1)
  /-- `res_r`: result of the last successful command (R23). -/
  resR : Block
  /-- `done_r`: a command has completed since the last accept or reset (R24). -/
  doneR : Bool
  /-- `err_r`: the last completed command ended in InputError (R25). -/
  errR : Bool
  deriving DecidableEq, Repr

/-- The output ports that R56 gives the three sub-blocks, as last read out by an F, ROUND_KEY or ROUND. The model's own
(DESIGN CHOICE, log 7): the sub-blocks hold no state (R32), and no command reads or writes this. -/
structure Probe where
  /-- `word_transform_f.f` -/
  f : Word
  /-- `key_schedule.subkey` -/
  subkey : Word
  /-- `round_function.y` -/
  y : Block
  deriving DecidableEq, Repr

/-- The machine between two edges. -/
structure State where
  /-- The model's argument `ROUNDS_W` (R8; log 1): a parameter of this machine, no register. No step changes it; the widths below
  follow it. -/
  roundsW : Nat
  /-- The registers of R16. -/
  regs : Registers roundsW
  /-- The model's own (log 7): the read-out of the sub-blocks. -/
  probe : Probe
  /-- The model's own (log 2): what the host drives on the input ports at the coming edges, next edge first (R54). -/
  script : List (Ports roundsW)
  /-- The model's own (log 4): the number of the next edge, the argument of the free values. -/
  edge : Nat
  deriving DecidableEq, Repr

/-- Reasons to stop with a fault: none. The one exception, InputError, is an error completion with a next state
(R88), and "No other failure exists" (R90). Safe: no path ends in one. -/
inductive Fault where
  deriving DecidableEq, Repr

/-- Reasons to refuse an instruction. -/
inductive Refusal where
  /-- An instruction without a meaning, by its mnemonic. Raised only by an arm of `exec` without a meaning: now by none.
  Safe. -/
  | notModelled (mnemonic : String)
  deriving DecidableEq, Repr

/-- The reset column of R16: every register 0. -/
def Registers.reset (W : Nat) : Registers W where
  runR := false
  sR := 0
  keyR := 0
  opR := false
  idxR := 0
  cntR := 0
  resR := 0
  doneR := false
  errR := false

/-- The registers before the first edge with `rst = 1`: an arbitrary draw each (R103; log 6). -/
def Registers.powerUp (W : Nat) : Registers W where
  runR := Config.powerUpRun
  sR := Config.powerUpS
  keyR := Config.powerUpKey
  opR := Config.powerUpOp
  idxR := Config.powerUpIdx W
  cntR := Config.powerUpCnt W
  resR := Config.powerUpRes
  doneR := Config.powerUpDone
  errR := Config.powerUpErr

/-- The machine with `ROUNDS_W = W` right after a reset edge (R16, R101), the host having said nothing yet. The values of `probe`,
`script` and `edge` are the model's (DESIGN CHOICE, log 2, 4, 7). -/
def State.resetAt (W : Nat) : State where
  roundsW := W
  regs := Registers.reset W
  probe := { f := 0, subkey := 0, y := 0 }
  script := []
  edge := 0

/-- The machine right after a reset edge, at the spec's default `ROUNDS_W` (R8; log 1). -/
def State.reset : State := State.resetAt Config.defaultRoundsW

/-- The machine with `ROUNDS_W = W` before its first reset edge (R103). -/
def State.powerUpAt (W : Nat) : State := { State.resetAt W with regs := Registers.powerUp W }

/-- The machine before its first reset edge, at the spec's default `ROUNDS_W`. -/
def State.powerUp : State := State.powerUpAt Config.defaultRoundsW

end Sys2Proof.Machine
end

