-- ==== Sys2Proof/Machine/Flags.lean ====
section
/-!
DEFINITION. The three status bits `run_r`, `done_r`, `err_r`: every way a command writes them (10_state.md R17, R24, R25, R27).
-/

namespace Sys2Proof.Machine

/-- Accept of a positive-count command (R81, R82): busy, not done, no error. -/
def Registers.flagRunning {W : Nat} (r : Registers W) : Registers W :=
  { r with runR := true, doneR := false, errR := false }

/-- The final round (R78): idle and done; `err_r` is not written. -/
def Registers.flagFinished {W : Nat} (r : Registers W) : Registers W :=
  { r with runR := false, doneR := true }

/-- A zero-count command (R80): done, no error; `run_r` is not written. -/
def Registers.flagAnswered {W : Nat} (r : Registers W) : Registers W :=
  { r with doneR := true, errR := false }

/-- The error completion (R88): done and error; `run_r` is not written. -/
def Registers.flagError {W : Nat} (r : Registers W) : Registers W :=
  { r with doneR := true, errR := true }

end Sys2Proof.Machine
end

