-- ==== Sys2Proof/Machine/Functions.lean ====
section
/-!
DEFINITION. The pure functions of the cipher, named as the spec names them (00_scope.md R13): F, round_key, round, split,
join, encrypt and decrypt.
-/

namespace Sys2Proof.Machine

/-- F, the word transform (R57). -/
def wordTransformF (w : Word) : Word :=
  let low := w &&& 0xFF
  let high := (w >>> 8) &&& 0xFF
  let part1 := (low >>> 3) &&& 0xFF
  let part2 := ~~~high &&& 0xFF
  (part2 <<< 8) ||| part1

/-- round_key, the subkey of round `i` (R60). The shift is on numbers, so it loses no bit. -/
def roundKey (K : Key) (i : Nat) : Word :=
  let N := (~~~K).toNat
  let T := N <<< (2 * i)
  BitVec.ofNat 16 ((T >>> 16) &&& 0xFFFF)

/-- round, one Feistel step (R65). All four results are of the input words (R66). -/
def roundFunction (X : Words) (k : Word) : Words where
  x0 := (X.x0 ^^^ X.x1) ^^^ (X.x3 ^^^ k)
  x1 := wordTransformF X.x2
  x2 := X.x0
  x3 := X.x2

/-- split (R69): `[b[63:48], b[47:32], b[31:16], b[15:0]]`. -/
def split (b : Block) : Words where
  x0 := b.extractLsb' 48 16
  x1 := b.extractLsb' 32 16
  x2 := b.extractLsb' 16 16
  x3 := b.extractLsb' 0 16

/-- join (R70): `{y0, y1, y2, y3}`. -/
def join (Y : Words) : Block :=
  Y.x0 ++ Y.x1 ++ Y.x2 ++ Y.x3

/-- The sub-block `round_function` on 64-bit values: `y = join(round(split(x), k))` (R56, R68). -/
def roundBlock (x : Block) (k : Word) : Block :=
  join (roundFunction (split x) k)

/-- The rounds with the indices of the list, in its order: the loop body of R71 and R72. -/
def runRounds (K : Key) (indices : List Nat) (X : Words) : Words :=
  indices.foldl (fun X i => roundFunction X (roundKey K i)) X

/-- encrypt (R71): round indices `0, 1, ..., n-1`. -/
def encryptRounds (block : Block) (K : Key) (n : Nat) : Block :=
  join (runRounds K (List.range n) (split block))

/-- decrypt (R72): round indices `n-1, ..., 1, 0` through the same round. -/
def decryptRounds (block : Block) (K : Key) (n : Nat) : Block :=
  join (runRounds K (List.range n).reverse (split block))

/-- encrypt or decrypt as the value of `op` selects (R44). -/
def cipherRounds (op : Bool) (block : Block) (K : Key) (n : Nat) : Block :=
  if op then decryptRounds block K n else encryptRounds block K n

/-- The caller's `encrypt(block, K, n)` for any integer `n`; `none` is InputError (R71, R74). -/
def encrypt (block : Block) (K : Key) (n : Int) : Option Block :=
  if n < 0 then none else some (encryptRounds block K n.toNat)

/-- The caller's `decrypt(block, K, n)` for any integer `n`; `none` is InputError (R72, R74). -/
def decrypt (block : Block) (K : Key) (n : Int) : Option Block :=
  if n < 0 then none else some (decryptRounds block K n.toNat)

end Sys2Proof.Machine
end

