-- ==== Sys2Proof/Machine/Operands.lean ====
section
/-!
DEFINITION. The operands of a command and of a running edge (30_encoding.md R51; 43_block_cipher_datapath.md R76, R77).
-/

namespace Sys2Proof.Machine

/-- The first round index of a command of `n >= 1` rounds (R51): 0 for encrypt, `n - 1` for decrypt. -/
def firstIndex {W : Nat} (op : Bool) (n : BitVec (W - 1)) : BitVec (W - 1) :=
  if op then n - 1 else 0

/-- `cnt_r - 1` (R77), at edge `e`. At 0 the exact result is no `IDX_W`-bit number: a free value (log 5). -/
def nextCount {W : Nat} (e : Nat) (c : BitVec (W - 1)) : BitVec (W - 1) :=
  if c = 0 then Config.freeCount W e else c - 1

/-- `(op_r = 0) ? idx_r + 1 : idx_r - 1` (R77), at edge `e`. Where the exact result is no `IDX_W`-bit number: a free value
(log 5). -/
def nextIndex {W : Nat} (e : Nat) (op : Bool) (i : BitVec (W - 1)) : BitVec (W - 1) :=
  if op then
    if i = 0 then Config.freeIndex W e else i - 1
  else
    if i = BitVec.allOnes (W - 1) then Config.freeIndex W e else i + 1

/-- `k` of R76: the output of `key_schedule` on `key_r` and `idx_r`, not stored (R63). -/
def Registers.subkey {W : Nat} (r : Registers W) : Word :=
  roundKey r.keyR r.idxR.toNat

/-- `y` of R76: the output of `round_function` on `s_r` and the subkey. -/
def Registers.roundOut {W : Nat} (r : Registers W) : Block :=
  roundBlock r.sR r.subkey

end Sys2Proof.Machine
end

