-- ==== Sys2Proof/Machine/Ops.lean ====
section
/-!
DEFINITION. The shared operations over the registers: taking the exception and what ends its status, the accepts, the running
edge, the output ports, and the host's side of an edge.
-/

namespace Sys2Proof.Machine

/-! ## The exception -/

/-- InputError: the error completion, the hardware's trap entry (R87, R88, R93). Nothing is saved and nothing else changes. -/
def Registers.inputError {W : Nat} (r : Registers W) : Registers W :=
  r.flagError

/-- What a non-error accept captures (R80, R81, R82): block, key and operation. With the flags that each accept then writes it
is also what ends the error status, there being no return instruction (R94). -/
def Registers.capture {W : Nat} (r : Registers W) (op : Bool) (block : Block) (key : Key) : Registers W :=
  { r with sR := block, keyR := key, opR := op }

/-! ## Accepts -/

/-- ENCRYPT or DECRYPT with zero rounds (R80): complete at the accepting edge. -/
def Registers.acceptZero {W : Nat} (r : Registers W) (op : Bool) (block : Block) (key : Key) : Registers W :=
  { (r.capture op block key).flagAnswered with resR := block }

/-- ENCRYPT or DECRYPT accept with `n >= 1` rounds (R81, R82): no round is performed at this edge. -/
def Registers.acceptRounds {W : Nat} (r : Registers W) (op : Bool) (n : BitVec (W - 1)) (block : Block) (key : Key) :
    Registers W :=
  { (r.capture op block key).flagRunning with cntR := n, idxR := firstIndex op n }

/-- The accept of a command whose count is not negative, in its zero-count or positive-count form (R49). -/
def Registers.accept {W : Nat} (r : Registers W) (op : Bool) (n : BitVec (W - 1)) (block : Block) (key : Key) :
    Registers W :=
  if n = 0 then r.acceptZero op block key else r.acceptRounds op n block key

/-! ## The running edge -/

/-- ROUND_STEP, not the final round (R77), at edge `e`. -/
def Registers.innerRound {W : Nat} (e : Nat) (r : Registers W) : Registers W :=
  { r with sR := r.roundOut, cntR := nextCount e r.cntR, idxR := nextIndex e r.opR r.idxR }

/-- ROUND_STEP, the final round (R78). -/
def Registers.finalRound {W : Nat} (r : Registers W) : Registers W :=
  { r.flagFinished with sR := r.roundOut, resR := r.roundOut, cntR := 0 }

/-- ROUND_STEP: the final round exactly when `cnt_r = 1` (R77, R78). -/
def Registers.round {W : Nat} (e : Nat) (r : Registers W) : Registers W :=
  if r.cntR = 1 then r.finalRound else r.innerRound e

/-! ## The output ports -/

/-- The output ports of R42. -/
structure Outputs where
  busy : Bool
  done : Bool
  error : Bool
  resultOut : Block
  deriving DecidableEq, Repr

/-- Every output is a register; none is a function of an input (R47). -/
def Registers.outputs {W : Nat} (r : Registers W) : Outputs where
  busy := r.runR
  done := r.doneR
  error := r.errR
  resultOut := r.resR

/-- The output ports of the machine (R47). -/
def State.outputs (s : State) : Outputs := s.regs.outputs

/-! ## The host's side of an edge -/

/-- The input ports at the `j`-th edge from now: the script's line, or a free value past its end (log 2, 3). -/
def State.portsAt (s : State) (j : Nat) : Ports s.roundsW :=
  s.script[j]?.getD (Config.freePorts s.roundsW (s.edge + j))

/-- The host's side of one edge: the script's next line is used up. No register changes (log 2, 4). -/
abbrev State.nextEdge (s : State) : State :=
  { s with script := s.script.tail, edge := s.edge + 1 }

/-! ## Whole-state forms -/

/-- The machine with other registers, all else as it was. -/
abbrev State.setRegs (s : State) (r : Registers s.roundsW) : State :=
  { s with regs := r }

/-- A command's edge: `r` are the registers it leaves when it is accepted idle. At a running edge the command is dropped and
the edge is a ROUND_STEP (R50, R106; log 8). -/
def State.commandEdge (s : State) (r : Registers s.roundsW) : State :=
  s.setRegs (if s.regs.runR then s.regs.round s.edge else r)

end Sys2Proof.Machine
end

