-- ==== Sys2Proof/Machine/Cipher.lean ====
section
/-!
DEFINITION. The cipher commands at their accepting edge and the running edge (43_block_cipher_datapath.md R77 to R82).
-/

namespace Sys2Proof.Machine

/-- ENCRYPT (R80, R81), its count as the `IDX_W`-bit value of R51. (A count that does not fit is no input of this machine,
R43, and would lose its high bits: log 9.) -/
def execEncrypt (n : Nat) (block : Block) (key : Key) (s : State) : Host.Outcome State Fault Refusal :=
  .next (s.commandEdge (s.regs.accept false (BitVec.ofNat _ n) block key))

/-- DECRYPT (R80, R82), its count as for ENCRYPT. -/
def execDecrypt (n : Nat) (block : Block) (key : Key) (s : State) : Host.Outcome State Fault Refusal :=
  .next (s.commandEdge (s.regs.accept true (BitVec.ofNat _ n) block key))

/-- ILLEGAL_ROUNDS (R79): InputError, always; neither `op` nor the count is used. -/
def execIllegalRounds (_op : Bool) (_n : Int) (s : State) : Host.Outcome State Fault Refusal :=
  .next (s.commandEdge s.regs.inputError)

/-- ROUND_STEP (R77, R78), the edge of a running datapath. No idle edge is one; given to an idle machine it performs no
round (log 8). -/
def execRoundStep (s : State) : Host.Outcome State Fault Refusal :=
  .next (s.setRegs (if s.regs.runR then s.regs.round s.edge else s.regs))

end Sys2Proof.Machine
end

