-- ==== Sys2Proof/Machine/SubBlocks.lean ====
section
/-!
DEFINITION. The functions of the three combinational sub-blocks (30_encoding.md R56): the inputs are the operands, the output port is
read out into `probe` (log 7), and no register is written (10_state.md R32).
-/

namespace Sys2Proof.Machine

/-- F (R57): `word_transform_f.f = F(w)`. -/
def execF (w : Word) (s : State) : Host.Outcome State Fault Refusal :=
  .next { s with probe := { s.probe with f := wordTransformF w } }

/-- ROUND_KEY (R60): `key_schedule.subkey = round_key(key, i)`. -/
def execRoundKey (key : Key) (i : Nat) (s : State) : Host.Outcome State Fault Refusal :=
  .next { s with probe := { s.probe with subkey := roundKey key i } }

/-- ROUND (R65): `round_function.y`, the joined words `round(x, k)`. -/
def execRound (x : Words) (k : Word) (s : State) : Host.Outcome State Fault Refusal :=
  .next { s with probe := { s.probe with y := join (roundFunction x k) } }

end Sys2Proof.Machine
end

