-- ==== Sys2Proof/Machine/System.lean ====
section
/-!
DEFINITION. The commands that are not cipher operations: RESET (70_reset_and_hazards.md R101) and NOP (43_block_cipher_datapath.md
R83).
-/

namespace Sys2Proof.Machine

/-- RESET (R101, R104): every register takes its reset value, idle or running. -/
def execReset (s : State) : Host.Outcome State Fault Refusal :=
  .next (s.setRegs (Registers.reset s.roundsW))

/-- NOP (R83): no register is written. -/
def execNop (s : State) : Host.Outcome State Fault Refusal :=
  .next (s.commandEdge s.regs)

end Sys2Proof.Machine
end

