-- ==== Sys2Proof/Machine/Dispatch.lean ====
section
/-!
DEFINITION. `exec`: one arm per instruction.
-/

namespace Sys2Proof.Machine

/-- The meaning of an instruction. -/
def exec (i : Instr) (s : State) : Host.Outcome State Fault Refusal :=
  match i with
  | .reset => Sys2Proof.Machine.execReset s
  | .nop => Sys2Proof.Machine.execNop s
  | .encrypt n block key => Sys2Proof.Machine.execEncrypt n block key s
  | .decrypt n block key => Sys2Proof.Machine.execDecrypt n block key s
  | .illegalRounds op n => Sys2Proof.Machine.execIllegalRounds op n s
  | .roundStep => Sys2Proof.Machine.execRoundStep s
  | .f w => Sys2Proof.Machine.execF w s
  | .roundKey key idx => Sys2Proof.Machine.execRoundKey key idx s
  | .round x k => Sys2Proof.Machine.execRound x k s

end Sys2Proof.Machine
end

