-- ==== Sys2Proof/Machine/Step.lean ====
section
/-!
DEFINITION. One step is one rising edge of `clk` (00_scope.md R12, 43_block_cipher_datapath.md R75): sample the ports, decode them
by `run_r`, run the instruction.
-/

namespace Sys2Proof.Machine

/-- One edge. The host's line is used up first, so that what `exec` answers is the machine after the edge. -/
def step (s : State) : Host.Outcome State Fault Refusal :=
  exec (decode s.regs.runR (s.portsAt 0)) s.nextEdge

/-- `s` with the instruction of those bits (numbered as the opcode table numbers them, log 10) as the line the host drives at
the next edge; bits that are no instruction change nothing. -/
def State.withFetchWord (s : State) (nbits w : Nat) : State :=
  match portsOfTableBits s.roundsW nbits w with
  | .ok p => { s with script := p :: s.script.tail }
  | .error _ => s

end Sys2Proof.Machine
end

