-- ==== Sys2Proof/Machine/Datapath.lean ====
section
/-!
DEFINITION. The per-edge step of the datapath as 43_block_cipher_datapath.md R75 writes it, on the registers alone and for any
`ROUNDS_W`. The machine's own `step` goes through decode and exec; the script expansion below and the claims use this form.
-/

namespace Sys2Proof.Machine

/-- `step()` of R75, at edge `e`: the arms in its order of priority. -/
def datapathStep {W : Nat} (e : Nat) (p : Ports W) (r : Registers W) : Registers W :=
  if p.rst then Registers.reset W
  else if r.runR then r.round e
  else if p.start then
    if sint p.roundsIn < 0 then r.inputError
    else if sint p.roundsIn = 0 then r.acceptZero p.op p.blockIn p.keyIn
    else if p.op then r.acceptRounds true p.countField p.blockIn p.keyIn
    else r.acceptRounds false p.countField p.blockIn p.keyIn
  else r

/-- The registers after the edges of a list of ports, the first at edge `e`. -/
def datapathRun {W : Nat} (e : Nat) : List (Ports W) → Registers W → Registers W
  | [], r => r
  | p :: ps, r => datapathRun (e + 1) ps (datapathStep e p r)

end Sys2Proof.Machine
end

