-- ==== Sys2Proof/Machine/Script.lean ====
section
/-!
DEFINITION. Host scripts, the spec's assembly language (30_encoding.md R54, R55): the lines and pseudo-instructions, their
expansion into one port vector an edge, and their text.
-/

namespace Sys2Proof.Machine

/-- A line of a host script (R54) or a pseudo-instruction (R55). -/
inductive ScriptLine where
  /-- `RST` -/
  | rst
  /-- `NOP` -/
  | nop
  /-- `ENC n, B, K` -/
  | enc (n : Int) (block : Block) (key : Key)
  /-- `DEC n, B, K` -/
  | dec (n : Int) (block : Block) (key : Key)
  /-- `IDLE m` -/
  | idle (m : Nat)
  /-- `WAIT` -/
  | wait
  /-- `ENCW n, B, K` -/
  | encw (n : Int) (block : Block) (key : Key)
  /-- `DECW n, B, K` -/
  | decw (n : Int) (block : Block) (key : Key)
  deriving DecidableEq, Repr

/-- Why a script has no expansion (log 12). -/
inductive ScriptError where
  /-- A round count outside `[-2^(ROUNDS_W-1), MAX_ROUNDS]` (R54). -/
  | roundsOutOfRange
  /-- A `WAIT` at a point from which no number of NOP edges makes `done = 1`. -/
  | waitNeverEnds
  /-- A line of text that is no script line. -/
  | badLine
  deriving DecidableEq, Repr

/-- One edge, or a `WAIT` whose number of edges depends on the datapath. -/
inductive ScriptItem (W : Nat) where
  | edge (p : Ports W)
  | wait
  deriving DecidableEq, Repr

/-- The line `RST`: `rst = 1`, all else 0 (R54). -/
def Ports.resetLine (W : Nat) : Ports W := { Ports.idle W with rst := true }

/-- The lines `ENC` (`op = false`) and `DEC` (`op = true`): `rounds_in = n mod 2^ROUNDS_W` (R54). -/
def Ports.commandLine {W : Nat} (op : Bool) (n : Int) (block : Block) (key : Key) : Except ScriptError (Ports W) :=
  if -(2 ^ (W - 1) : Int) ≤ n ∧ n ≤ (Config.maxRounds W : Int) then
    .ok { rst := false, start := true, op := op, roundsIn := BitVec.ofInt W n, blockIn := block, keyIn := key }
  else .error .roundsOutOfRange

/-- A command line as one edge, followed by the given items. -/
def commandItems {W : Nat} (op : Bool) (n : Int) (block : Block) (key : Key) (more : List (ScriptItem W)) :
    Except ScriptError (List (ScriptItem W)) :=
  match Ports.commandLine op n block key with
  | .ok p => .ok (.edge p :: more)
  | .error e => .error e

/-- The expansions of R55, but for the number of NOPs of a `WAIT`. -/
def ScriptLine.items {W : Nat} : ScriptLine → Except ScriptError (List (ScriptItem W))
  | .rst => .ok [.edge (Ports.resetLine W)]
  | .nop => .ok [.edge (Ports.idle W)]
  | .enc n block key => commandItems false n block key []
  | .dec n block key => commandItems true n block key []
  | .idle m => .ok (List.replicate m (.edge (Ports.idle W)))
  | .wait => .ok [.wait]
  | .encw n block key => commandItems false n block key [.wait]
  | .decw n block key => commandItems true n block key [.wait]

/-- The number of NOP edges until the first edge after which `done = 1` (R55), at most `fuel`, from registers `r` before the edge
with number `e`. -/
def nopsUntilDone {W : Nat} : Nat → Nat → Registers W → Option Nat
  | 0, _, r => if r.doneR then some 0 else none
  | fuel + 1, e, r =>
      if r.doneR then some 0
      else (nopsUntilDone fuel (e + 1) (datapathStep e (Ports.idle W) r)).map (· + 1)

/-- One port vector an edge, following the datapath from registers `r` at edge `e`. After a reset no command outlasts `MAX_ROUNDS`
NOPs (R86), so that is how far a `WAIT` is followed. -/
def expandItems {W : Nat} : Nat → Registers W → List (ScriptItem W) → Except ScriptError (List (Ports W))
  | _, _, [] => .ok []
  | e, r, .edge p :: items =>
      match expandItems (e + 1) (datapathStep e p r) items with
      | .ok ps => .ok (p :: ps)
      | .error x => .error x
  | e, r, .wait :: items =>
      match nopsUntilDone (Config.maxRounds W) e r with
      | none => .error .waitNeverEnds
      | some m =>
          let nops := List.replicate m (Ports.idle W)
          match expandItems (e + m) (datapathRun e nops r) items with
          | .ok ps => .ok (nops ++ ps)
          | .error x => .error x

/-- The items of all lines, in order. -/
def scriptItems {W : Nat} : List ScriptLine → Except ScriptError (List (ScriptItem W))
  | [] => .ok []
  | line :: lines =>
      match line.items, scriptItems lines with
      | .ok a, .ok b => .ok (a ++ b)
      | .error x, _ => .error x
      | .ok _, .error x => .error x

/-- The edges of a script presented to registers `r`, its first line at edge `e` (R54, R55). -/
def expandScript {W : Nat} (e : Nat) (r : Registers W) (lines : List ScriptLine) : Except ScriptError (List (Ports W)) :=
  match scriptItems lines with
  | .ok items => expandItems e r items
  | .error x => .error x

/-- The machine with a script for the host to drive from the next edge on. The next edge is the one that `step` numbers
`s.edge + 1`, so the expansion follows the very edges that `step` will take, their free values (log 5) among them.
DESIGN CHOICE (log 12), for a machine not yet reset: R55 does not say what a `WAIT` is while such a machine is running with
`cnt_r = 0`, where no output is meaningful (93_implementation_defined.md section 2). There too the model counts the NOPs that
`step` takes until `done = 1`, whatever values the count draws, and refuses by `waitNeverEnds` where MAX_ROUNDS of them do not
suffice. -/
def State.loadScript (s : State) (lines : List ScriptLine) : Except ScriptError State :=
  match expandScript (s.edge + 1) s.regs lines with
  | .ok ps => .ok { s with script := ps }
  | .error x => .error x

/-! ## The text of a script (R54; its white space and blank lines: log 12) -/

/-- The pieces of a text between the separators `c`. -/
def splitAtChar (c : Char) : List Char → List (List Char)
  | [] => [[]]
  | x :: xs =>
      if x = c then [] :: splitAtChar c xs
      else match splitAtChar c xs with
        | piece :: pieces => (x :: piece) :: pieces
        | [] => [[x]]

/-- White space inside a line. -/
def isBlank (c : Char) : Bool := c = ' ' || c = '\t' || c = '\r'

/-- A text without white space at its ends. -/
def trimBlanks (cs : List Char) : List Char :=
  ((cs.dropWhile isBlank).reverse.dropWhile isBlank).reverse

/-- The value of a digit in base 16. -/
def digitValue (c : Char) : Option Nat :=
  let v := c.toNat
  if 48 ≤ v ∧ v ≤ 57 then some (v - 48)
  else if 65 ≤ v ∧ v ≤ 70 then some (v - 55)
  else if 97 ≤ v ∧ v ≤ 102 then some (v - 87)
  else none

/-- Digits in a base up to 16, most significant first, after the value read so far. -/
def digitsFrom (base : Nat) : Nat → List Char → Option Nat
  | acc, [] => some acc
  | acc, c :: cs =>
      match digitValue c with
      | some d => if d < base then digitsFrom base (acc * base + d) cs else none
      | none => none

/-- A decimal number of at least one digit. -/
def parseDecimal : List Char → Option Nat
  | [] => none
  | c :: cs => digitsFrom 10 0 (c :: cs)

/-- A decimal integer, negative with a leading `-`. -/
def parseInteger : List Char → Option Int
  | '-' :: cs => (parseDecimal cs).map (fun n => -(n : Int))
  | cs => (parseDecimal cs).map (fun n => (n : Int))

/-- A 64-bit value in hexadecimal with a leading `0x`. -/
def parseHex64 : List Char → Option (BitVec 64)
  | '0' :: 'x' :: c :: cs =>
      match digitsFrom 16 0 (c :: cs) with
      | some v => if v < 2 ^ 64 then some (BitVec.ofNat 64 v) else none
      | none => none
  | _ => none

/-- The operands `n, B, K` of a command line. -/
def parseOperands (cs : List Char) : Option (Int × Block × Key) :=
  match (splitAtChar ',' cs).map trimBlanks with
  | [n, block, key] =>
      match parseInteger n, parseHex64 block, parseHex64 key with
      | some n, some block, some key => some (n, block, key)
      | _, _, _ => none
  | _ => none

/-- A command line with its constructor. -/
def commandOf (make : Int → Block → Key → ScriptLine) (operands : List Char) : Option ScriptLine :=
  (parseOperands operands).map (fun o => make o.1 o.2.1 o.2.2)

/-- A pseudo-instruction or line without operands. -/
def plainLine (line : ScriptLine) (operands : List Char) : Option ScriptLine :=
  if operands = [] then some line else none

/-- One line of text without its comment: the mnemonic, then the operands (R54, R55). -/
def parseLine (cs : List Char) : Option ScriptLine :=
  let name := cs.takeWhile (fun c => !isBlank c)
  let operands := trimBlanks (cs.dropWhile (fun c => !isBlank c))
  if name = ['R', 'S', 'T'] then plainLine .rst operands
  else if name = ['N', 'O', 'P'] then plainLine .nop operands
  else if name = ['W', 'A', 'I', 'T'] then plainLine .wait operands
  else if name = ['I', 'D', 'L', 'E'] then (parseDecimal operands).map .idle
  else if name = ['E', 'N', 'C'] then commandOf .enc operands
  else if name = ['E', 'N', 'C', 'R', 'Y', 'P', 'T'] then commandOf .enc operands
  else if name = ['D', 'E', 'C'] then commandOf .dec operands
  else if name = ['D', 'E', 'C', 'R', 'Y', 'P', 'T'] then commandOf .dec operands
  else if name = ['E', 'N', 'C', 'W'] then commandOf .encw operands
  else if name = ['D', 'E', 'C', 'W'] then commandOf .decw operands
  else none

/-- The lines of a script, a comment running from `;` to the end of its line. -/
def parseLines : List (List Char) → Except ScriptError (List ScriptLine)
  | [] => .ok []
  | cs :: rest =>
      let body := trimBlanks (cs.takeWhile (fun c => c ≠ ';'))
      if body = [] then parseLines rest
      else match parseLine body, parseLines rest with
        | some line, .ok lines => .ok (line :: lines)
        | none, _ => .error .badLine
        | some _, .error x => .error x

/-- A script's text. -/
def parseScript (text : List Char) : Except ScriptError (List ScriptLine) :=
  parseLines (splitAtChar '\n' text)

end Sys2Proof.Machine
end

