-- ==== Sys2Proof/Safety.lean ====
section
/-!
DEFINITION. The notions that claims about runs are stated in: the register invariants (10_state.md R27, R31), a valid result
(70_reset_and_hazards.md R108), what a host can observe (10_state.md R30), and a run of edges.
-/

namespace Sys2Proof.Machine

/-- The register invariants of R31, for a command of some round count up to MAX_ROUNDS, and no error without done (R27). -/
structure Registers.Inv {W : Nat} (r : Registers W) : Prop where
  idle_count : r.runR = false → r.cntR = 0
  running_count : r.runR = true → 1 ≤ r.cntR.toNat ∧ r.cntR.toNat ≤ Config.maxRounds W
  running_flags : r.runR = true → r.doneR = false ∧ r.errR = false
  encrypt_index : r.runR = true → r.opR = false → r.idxR.toNat + r.cntR.toNat ≤ Config.maxRounds W
  decrypt_index : r.runR = true → r.opR = true → r.idxR.toNat + 1 = r.cntR.toNat
  error_done : r.errR = true → r.doneR = true

/-- The invariants, of a machine whose `ROUNDS_W` is one the spec admits (R8). -/
structure State.Inv (s : State) : Prop where
  width : 2 ≤ s.roundsW
  regs : s.regs.Inv

/-- The legal combinations of `(busy, done, error)` after the first reset (R27). -/
def Outputs.legal (o : Outputs) : Prop :=
  (o.busy, o.done, o.error) = (false, false, false) ∨ (o.busy, o.done, o.error) = (false, true, false) ∨
    (o.busy, o.done, o.error) = (false, true, true) ∨ (o.busy, o.done, o.error) = (true, false, false)

/-- `result_out` is the result of a command (R47, R108). -/
def Outputs.valid (o : Outputs) : Prop := o.done = true ∧ o.error = false

/-- The machine after `k` edges. -/
def State.after (k : Nat) (s : State) : Host.Outcome State Fault Refusal := Host.Core.run Sys2Proof.core k s

/-- `t` is `s` with the registers `r`, whatever the host's side holds (the script and the edge number: log 2, 4). -/
def State.Becomes (s : State) (r : Registers s.roundsW) (t : State) : Prop :=
  ∃ script edge, t = { s with regs := r, script := script, edge := edge }

/-- The inputs at the next `k` edges all have `rst = 0`. -/
def State.noResetFor (s : State) (k : Nat) : Prop := ∀ j, j < k → (s.portsAt j).rst = false

/-- The edge accepts a command with a count that is not negative: idle, no reset, `start`, sign bit 0 (R49). -/
def Registers.acceptsAt {W : Nat} (r : Registers W) (p : Ports W) : Prop :=
  r.runR = false ∧ p.rst = false ∧ p.start = true ∧ 0 ≤ sint p.roundsIn

/-- The machine `s` with the registers `r` in place of its own is one a host cannot tell from `s`, now or later (R30): the same
outputs and, while running, the same registers. -/
structure State.AlikeWith (s : State) (r : Registers s.roundsW) : Prop where
  outputs : s.regs.outputs = r.outputs
  running : s.regs.runR = true → r = s.regs

end Sys2Proof.Machine
end

