-- ==== Sys2Proof/Certificates/Slice0/Obligations.lean ====
section
/-!
DEFINITION. The statements for the provers. A docstring names the rule of spec/ each one formalises; where it rests on a choice of
the model, it names the log entry.
-/

open Sys2Proof Sys2Proof.Machine

/-! ## The sub-blocks -/

/-- R57. F on every word: its pseudocode on numbers, its bits, its corner cases and example. -/
def Obligations.WordTransformFollowsItsPseudocode : Prop :=
  (∀ w : Word,
    (wordTransformF w).toNat = (255 - w.toNat / 256) * 256 + w.toNat % 256 / 8 ∧
    wordTransformF w = (~~~w.extractLsb' 8 8) ++ (0 : BitVec 3) ++ w.extractLsb' 3 5 ∧
    (wordTransformF w = 0 ↔ 0xFF00 ≤ w.toNat ∧ w.toNat ≤ 0xFF07)) ∧
  (∀ v w : Word, v >>> 3 = w >>> 3 → wordTransformF v = wordTransformF w) ∧
  wordTransformF 0x0000 = 0xFF00 ∧ wordTransformF 0x0007 = 0xFF00 ∧ wordTransformF 0xFFFF = 0x001F ∧
  wordTransformF 0x1234 = 0xED06

/-- The properties that R58 derives: the image of F, its eight preimages a value, and F applied twice. -/
def Obligations.WordTransformLosesExactlyThreeBits : Prop :=
  (∀ v w : Word, wordTransformF v = wordTransformF w ↔ v >>> 3 = w >>> 3) ∧
  (∀ y : Word, (∃ w : Word, wordTransformF w = y) ↔ y &&& 0x00E0 = 0) ∧
  (∀ w : Word, wordTransformF (wordTransformF w) = (w &&& 0xFF00) ||| ((w &&& 0x00FF) >>> 6))

/-- R60. round_key for every key and every index: its pseudocode on numbers, its corner cases and example. -/
def Obligations.RoundKeyFollowsItsPseudocode : Prop :=
  ∀ (K : Key) (i : Nat),
    (roundKey K i).toNat = ((2 ^ 64 - 1 - K.toNat) * 2 ^ (2 * i) / 2 ^ 16) % 2 ^ 16 ∧
    (16 ≤ i → roundKey K i = 0) ∧
    roundKey 0xFFFFFFFFFFFFFFFF i = 0 ∧
    (i ≤ 8 → roundKey 0 i = 0xFFFF) ∧
    roundKey K i = roundKey (K &&& 0xFFFFFFFF) i ∧
    roundKey 0x0123456789ABCDEF 0 = 0x7654

/-- R63. The subkey of a running edge as a selector of inverted bits of `key_r[31:0]`, for any ROUNDS_W. -/
def Obligations.SubkeySelectsInvertedKeyBits : Prop :=
  ∀ (W : Nat) (r : Registers W),
    (∀ j : Nat, j < 16 →
      r.subkey.getLsbD j =
        if 2 * r.idxR.toNat ≤ j + 16 then !r.keyR.getLsbD (j + 16 - 2 * r.idxR.toNat) else false) ∧
    (∀ q : Registers W, q.idxR = r.idxR → (∀ b : Nat, b < 32 → q.keyR.getLsbD b = r.keyR.getLsbD b) → q.subkey = r.subkey)

/-- What R62 derives: a shift truncated to 64 bits, or to 32, gives the same subkey. -/
def Obligations.ShiftWidthDoesNotChangeTheSubkey : Prop :=
  ∀ (K : Key) (i : Nat),
    roundKey K i = ((~~~K <<< (2 * i)) >>> 16).setWidth 16 ∧
    roundKey K i = ((~~~(K.setWidth 32) <<< (2 * i)) >>> 16).setWidth 16

/-- R65. round on every four words and subkey: each output word from the input words; its form on 64-bit values; the subkey that
cancels `y0`; the all-zero corner case and the example. -/
def Obligations.RoundComputesItsFourWords : Prop :=
  (∀ x0 x1 x2 x3 k : Word,
    roundFunction ⟨x0, x1, x2, x3⟩ k = ⟨x0 ^^^ x1 ^^^ (x3 ^^^ k), wordTransformF x2, x0, x2⟩ ∧
    (k = x0 ^^^ x1 ^^^ x3 → (roundFunction ⟨x0, x1, x2, x3⟩ k).x0 = 0)) ∧
  (∀ (x : Block) (k : Word),
    join (roundFunction (split x) k) =
      (x.extractLsb' 48 16 ^^^ x.extractLsb' 32 16 ^^^ x.extractLsb' 0 16 ^^^ k) ++ wordTransformF (x.extractLsb' 16 16) ++
        x.extractLsb' 48 16 ++ x.extractLsb' 16 16) ∧
  roundFunction ⟨0, 0, 0, 0⟩ 0 = ⟨0, 0xFF00, 0, 0⟩ ∧
  roundFunction ⟨0x1234, 0x5678, 0x90AB, 0xCDEF⟩ 0xFFFF = ⟨0x765C, 0x6F15, 0x1234, 0x90AB⟩

/-- The model's choice of log 7: the rows F, ROUND_KEY and ROUND complete on every state and all their operands, with the output
of the sub-block (R56) in the read-out, and change nothing else. -/
def Obligations.SubBlockRowsReadOutTheirFunctions : Prop :=
  ∀ s : State,
    (∀ w : Word, exec (.f w) s = .next { s with probe := { s.probe with f := wordTransformF w } }) ∧
    (∀ (K : Key) (i : Nat), exec (.roundKey K i) s = .next { s with probe := { s.probe with subkey := roundKey K i } }) ∧
    (∀ x0 x1 x2 x3 k : Word, exec (.round ⟨x0, x1, x2, x3⟩ k) s =
      .next { s with probe := { s.probe with y := (x0 ^^^ x1 ^^^ (x3 ^^^ k)) ++ wordTransformF x2 ++ x0 ++ x2 } })

/-- What R67 derives, sharpened: two inputs of a round collide exactly when `x0`, `x2` and `x1 ^ x3` agree. -/
def Obligations.RoundMergesExactlyX1AndX3 : Prop :=
  ∀ (X Y : Words) (k : Word),
    roundFunction X k = roundFunction Y k ↔ X.x0 = Y.x0 ∧ X.x2 = Y.x2 ∧ X.x1 ^^^ X.x3 = Y.x1 ^^^ Y.x3

/-- R69, R70. split and join by their shifts and masks on numbers. -/
def Obligations.SplitAndJoinFollowTheirFormulas : Prop :=
  (∀ b : Block,
    (split b).x0.toNat = b.toNat / 2 ^ 48 % 2 ^ 16 ∧ (split b).x1.toNat = b.toNat / 2 ^ 32 % 2 ^ 16 ∧
    (split b).x2.toNat = b.toNat / 2 ^ 16 % 2 ^ 16 ∧ (split b).x3.toNat = b.toNat % 2 ^ 16) ∧
  (∀ Y : Words,
    (join Y).toNat = Y.x0.toNat * 2 ^ 48 + Y.x1.toNat * 2 ^ 32 + Y.x2.toNat * 2 ^ 16 + Y.x3.toNat)

/-- What R70 derives: split and join undo each other. -/
def Obligations.SplitAndJoinAreInverse : Prop :=
  (∀ b : Block, join (split b) = b) ∧ (∀ Y : Words, split (join Y) = Y)

/-! ## encrypt and decrypt -/

/-- R71 to R74. encrypt appends the round with the highest index, decrypt performs it first; no round returns the block; a
negative count has no result. -/
def Obligations.EncryptAndDecryptAreTheRoundLoops : Prop :=
  ∀ (b : Block) (K : Key) (n : Nat),
    encryptRounds b K (n + 1) = roundBlock (encryptRounds b K n) (roundKey K n) ∧
    decryptRounds b K (n + 1) = decryptRounds (roundBlock b (roundKey K n)) K n ∧
    encryptRounds b K 0 = b ∧ decryptRounds b K 0 = b ∧
    encrypt b K 0 = some b ∧ decrypt b K 0 = some b ∧
    encrypt b K n = some (encryptRounds b K n) ∧ decrypt b K n = some (decryptRounds b K n) ∧
    (∀ m : Int, m < 0 → encrypt b K m = none ∧ decrypt b K m = none)

/-- What R64 item 2 derives, for whole commands: bits 63 to 32 of the key never affect a result. -/
def Obligations.UpperKeyHalfNeverMatters : Prop :=
  ∀ (op : Bool) (b : Block) (K : Key) (n : Nat), cipherRounds op b K n = cipherRounds op b (K &&& 0xFFFFFFFF) n

/-- R85 item 3 (and item 2 for one round): where all subkeys are equal, decrypt is encrypt. -/
def Obligations.EqualSubkeysMakeDecryptEncrypt : Prop :=
  ∀ (b : Block) (K : Key) (n : Nat),
    (∀ i : Nat, i < n → roundKey K i = roundKey K 0) → decryptRounds b K n = encryptRounds b K n

/-- R85 item 2: the exact condition for the one-round round trip, and a block where it fails. -/
def Obligations.OneRoundTripHoldsExactlyWhen : Prop :=
  (∀ (x0 x1 x2 x3 : Word) (K : Key),
    decryptRounds (encryptRounds (x0 ++ x1 ++ x2 ++ x3) K 1) K 1 = x0 ++ x1 ++ x2 ++ x3 ↔
      x3 = x0 ∧ x1 = wordTransformF x0 ∧ x2 = x1 ^^^ roundKey K 0 ∧
      x0 = roundKey K 0 ^^^ wordTransformF (wordTransformF x0 ^^^ roundKey K 0)) ∧
  decryptRounds (encryptRounds 0 0xFFFFFFFFFFFFFFFF 1) 0xFFFFFFFFFFFFFFFF 1 = 0xFF00FF0000000000

/-! ## Encoding -/

/-- R48. The places of the four fields in `CTRL`, for any ROUNDS_W; packing and unpacking lose nothing. -/
def Obligations.CtrlHoldsEachFieldInItsPlace : Prop :=
  ∀ (W : Nat),
    (∀ p : Ports W,
      p.ctrl.getLsbD (W + 2) = p.rst ∧ p.ctrl.getLsbD (W + 1) = p.start ∧ p.ctrl.getLsbD W = p.op ∧
      (∀ j : Nat, j < W → p.ctrl.getLsbD j = p.roundsIn.getLsbD j) ∧
      Ports.ofCtrl p.ctrl p.blockIn p.keyIn = p) ∧
    (∀ (c : BitVec (W + 3)) (b : Block) (k : Key), (Ports.ofCtrl c b k).ctrl = c)

/-- R49, R50, for any ROUNDS_W of at least 2: of the rows listed for `run_r`, exactly the selected one's mask and match fit
`CTRL`; at ROUNDS_W = 8 they are the numbers of the tables; the decoder gives the selected row's instruction. -/
def Obligations.EveryCtrlValueFitsExactlyOneRow : Prop :=
  (∀ (W : Nat), 2 ≤ W → ∀ (run : Bool) (p : Ports W),
    (p.row run).listedWhen run = true ∧
    ∀ row : CtrlRow, row.listedWhen run = true → (p.ctrl &&& row.mask W = row.pattern W ↔ row = p.row run)) ∧
  (CtrlRow.reset.mask 8, CtrlRow.reset.pattern 8) = (0x400, 0x400) ∧
  (CtrlRow.nop.mask 8, CtrlRow.nop.pattern 8) = (0x600, 0x000) ∧
  (CtrlRow.encrypt.mask 8, CtrlRow.encrypt.pattern 8) = (0x780, 0x200) ∧
  (CtrlRow.decrypt.mask 8, CtrlRow.decrypt.pattern 8) = (0x780, 0x300) ∧
  (CtrlRow.illegalRounds.mask 8, CtrlRow.illegalRounds.pattern 8) = (0x680, 0x280) ∧
  (CtrlRow.roundStep.mask 8, CtrlRow.roundStep.pattern 8) = (0x400, 0x000) ∧
  (∀ (W : Nat) (run : Bool) (p : Ports W), (decode run p).row = some (p.row run))

/-- For any ROUNDS_W of at least 2: the decoder undoes the encoder on every instruction that has an encoding, at every operand,
in the states its row is listed for; encoding what was decoded gives ports of the same meaning (the encoder drives ignored
inputs 0: log 9); exactly the internal functions and the counts that do not fit `rounds_in` have no encoding. -/
def Obligations.DecodeOfEncodeIsTheInstruction : Prop :=
  ∀ W : Nat, 2 ≤ W →
    (∀ (i : Instr) (p : Ports W) (run : Bool) (row : CtrlRow),
      encode W i = some p → i.row = some row → row.listedWhen run = true → decode run p = i) ∧
    (∀ (p : Ports W) (run : Bool), ∃ q, encode W (decode run p) = some q ∧ decode run q = decode run p) ∧
    (∀ i : Instr, encode W i = none ↔ i.row = none ∨ i.wellFormed W = false)

/-- Words of 95_test_vectors.md's programs and 30_encoding.md R54 decode to the lines they stand for (a sanity check). The first
five clauses rest on the model's numbering of log 10: a 16-bit number is `CTRL`, the data operands it does not hold are 0, and it
is read as at an idle edge. -/
def Obligations.WordsOfTheSpecDecodeToTheirLines : Prop :=
  decodeTableWord 16 0x400 = some .reset ∧
  decodeTableWord 16 0x000 = some .nop ∧
  decodeTableWord 16 0x208 = some (.encrypt 8 0 0) ∧
  decodeTableWord 16 0x37F = some (.decrypt 127 0 0) ∧
  decodeTableWord 16 0x2FF = some (.illegalRounds false (-1)) ∧
  decode false (Ports.ofCtrl (W := 8) 0x303 0x0123456789ABCDEF 0xFEDCBA9876543210) =
    .decrypt 3 0x0123456789ABCDEF 0xFEDCBA9876543210 ∧
  decode true (Ports.ofCtrl (W := 8) 0x205 0 0) = .roundStep

/-- The model's numbering of log 10, for any ROUNDS_W: the number made of `CTRL`, `block_in` and `key_in` in that order decodes to
the instruction of those ports at an idle edge; `CTRL` alone, to that of those ports with data 0. -/
def Obligations.TableBitsDecodeAsThePortsTheyHold : Prop :=
  ∀ (W : Nat) (p : Ports W),
    decodeTableBits W (ctrlBits W + 128)
        (p.ctrl.toNat + p.blockIn.toNat * 2 ^ ctrlBits W + p.keyIn.toNat * 2 ^ (ctrlBits W + 64)) = some (decode false p) ∧
    decodeTableBits W (ctrlBits W) p.ctrl.toNat = some (decode false { p with blockIn := 0, keyIn := 0 })

/-- The round count of R43 and R51, for any ROUNDS_W of at least 2: which patterns are negative, its range, and the count field. -/
def Obligations.RoundCountIsTwosComplement : Prop :=
  ∀ (W : Nat), 2 ≤ W → ∀ (p : Ports W),
    (sint p.roundsIn < 0 ↔ p.roundsIn.getLsbD (W - 1) = true) ∧
    -(2 ^ (W - 1) : Int) ≤ sint p.roundsIn ∧
    sint p.roundsIn ≤ (Config.maxRounds W : Int) ∧
    (0 ≤ sint p.roundsIn → (p.countField.toNat : Int) = sint p.roundsIn)

/-! ## The instructions -/

/-- R101 (with R16's values). RESET from every state, idle or running and whatever else is presented; and the state after reset,
for any ROUNDS_W. -/
def Obligations.ResetClearsEveryRegister : Prop :=
  (∀ W : Nat, (State.resetAt W).regs = ⟨false, 0, 0, false, 0, 0, 0, false, false⟩) ∧
  State.reset.regs = ⟨false, 0, 0, false, 0, 0, 0, false, false⟩ ∧
  (∀ s : State, exec .reset s = .next { s with regs := ⟨false, 0, 0, false, 0, 0, 0, false, false⟩ }) ∧
  (∀ s : State, (s.portsAt 0).rst = true →
    ∃ t, step s = .next t ∧ t.regs = ⟨false, 0, 0, false, 0, 0, 0, false, false⟩ ∧ t.outputs = ⟨false, false, false, 0⟩)

/-- R83. NOP of an idle machine changes nothing; its edge changes no register. -/
def Obligations.NopKeepsEveryRegister : Prop :=
  ∀ s : State, s.regs.runR = false →
    exec .nop s = .next s ∧
    ((s.portsAt 0).rst = false → (s.portsAt 0).start = false → ∃ t, step s = .next t ∧ s.Becomes s.regs t)

/-- R81. The ENCRYPT accept with a positive count, up to MAX_ROUNDS of any ROUNDS_W. -/
def Obligations.EncryptAcceptLoadsTheCommand : Prop :=
  ∀ (n : Nat) (block : Block) (key : Key) (s : State), s.regs.runR = false → 1 ≤ n → n ≤ Config.maxRounds s.roundsW →
    ∃ c : BitVec (s.roundsW - 1), c.toNat = n ∧
      exec (.encrypt n block key) s = .next { s with regs := { s.regs with
        sR := block, keyR := key, opR := false, cntR := c, idxR := 0, runR := true, doneR := false, errR := false } }

/-- R82. The DECRYPT accept with a positive count, up to MAX_ROUNDS of any ROUNDS_W. -/
def Obligations.DecryptAcceptLoadsTheCommand : Prop :=
  ∀ (n : Nat) (block : Block) (key : Key) (s : State), s.regs.runR = false → 1 ≤ n → n ≤ Config.maxRounds s.roundsW →
    ∃ c i : BitVec (s.roundsW - 1), c.toNat = n ∧ i.toNat = n - 1 ∧
      exec (.decrypt n block key) s = .next { s with regs := { s.regs with
        sR := block, keyR := key, opR := true, cntR := c, idxR := i, runR := true, doneR := false, errR := false } }

/-- R80. ENCRYPT and DECRYPT with zero rounds complete at the accepting edge. -/
def Obligations.ZeroRoundsCompleteAtOnce : Prop :=
  ∀ (block : Block) (key : Key) (s : State), s.regs.runR = false →
    exec (.encrypt 0 block key) s = .next { s with regs := { s.regs with
      sR := block, keyR := key, opR := false, resR := block, doneR := true, errR := false } } ∧
    exec (.decrypt 0 block key) s = .next { s with regs := { s.regs with
      sR := block, keyR := key, opR := true, resR := block, doneR := true, errR := false } }

/-- R79, R88, R93. ILLEGAL_ROUNDS with either `op` and every negative count: the error completion, nothing else changed. -/
def Obligations.IllegalRoundsTakesTheErrorCompletion : Prop :=
  ∀ (op : Bool) (n : Int) (s : State), s.regs.runR = false → n < 0 →
    exec (.illegalRounds op n) s = .next { s with regs := { s.regs with doneR := true, errR := true } }

/-- R77. ROUND_STEP that is not the final round. Where `cnt_r - 1` or the next index does not fit its register (only in states no
run after a reset reaches) that one value is free (log 5) and all else is as the rule says. -/
def Obligations.InnerRoundStepsStateCountAndIndex : Prop :=
  ∀ s : State, s.regs.runR = true → s.regs.cntR ≠ 1 →
    ∃ c i : BitVec (s.roundsW - 1),
      exec .roundStep s = .next { s with regs := { s.regs with
        sR := roundBlock s.regs.sR (roundKey s.regs.keyR s.regs.idxR.toNat), cntR := c, idxR := i } } ∧
      (s.regs.cntR ≠ 0 → c.toNat + 1 = s.regs.cntR.toNat) ∧
      (s.regs.opR = false → s.regs.idxR.toNat < 2 ^ (s.roundsW - 1) - 1 → i.toNat = s.regs.idxR.toNat + 1) ∧
      (s.regs.opR = true → s.regs.idxR ≠ 0 → i.toNat + 1 = s.regs.idxR.toNat)

/-- R78. The final ROUND_STEP. -/
def Obligations.FinalRoundWritesTheResult : Prop :=
  ∀ s : State, s.regs.runR = true → s.regs.cntR = 1 →
    exec .roundStep s = .next { s with regs := { s.regs with
      sR := roundBlock s.regs.sR (roundKey s.regs.keyR s.regs.idxR.toNat),
      resR := roundBlock s.regs.sR (roundKey s.regs.keyR s.regs.idxR.toNat),
      cntR := 0, runR := false, doneR := true } }

/-- The model's choice of log 8: `exec` of a command at the other value of `run_r` than its row's. A running machine drops
every command but RESET; an idle machine performs no round. -/
def Obligations.CommandsOutsideTheirStateAreDropped : Prop :=
  ∀ s : State,
    (s.regs.runR = true →
      exec .nop s = exec .roundStep s ∧
      (∀ n block key, exec (.encrypt n block key) s = exec .roundStep s) ∧
      (∀ n block key, exec (.decrypt n block key) s = exec .roundStep s) ∧
      (∀ op n, exec (.illegalRounds op n) s = exec .roundStep s)) ∧
    (s.regs.runR = false → exec .roundStep s = .next s)

/-! ## The step -/

/-- A step runs the decoded instruction, the host's line being used up first (log 2): the line is the script's head, or a free
value past the script's end (log 3), and a line is what `withFetchWord` puts there (log 10). -/
def Obligations.StepRunsTheDecodedInstruction : Prop :=
  (∀ s : State,
    step s = exec (decode s.regs.runR (s.portsAt 0)) { s with script := s.script.tail, edge := s.edge + 1 }) ∧
  (∀ (s : State) (p : Ports s.roundsW) (rest : List (Ports s.roundsW)), s.script = p :: rest → s.portsAt 0 = p) ∧
  (∀ (s : State) (nbits w : Nat) (i : Instr), s.regs.runR = false → decodeTableBits s.roundsW nbits w = some i →
    step (s.withFetchWord nbits w) = exec i { s with script := s.script.tail, edge := s.edge + 1 })

/-- R75. Each edge takes the arm of the rule's priority list, written out on the registers (`e` numbers the edge, for the free
values of log 5); nothing changes beside them but the host's side. -/
def Obligations.StepFollowsThePriorityList : Prop :=
  ∀ (s : State) (p : Ports s.roundsW), s.portsAt 0 = p →
    ∃ (t : State) (r : Registers s.roundsW) (e : Nat), step s = .next t ∧ s.Becomes r t ∧
      r = datapathStep e p s.regs ∧
      (p.rst = true → r = Registers.reset s.roundsW) ∧
      (p.rst = false → s.regs.runR = true → r = s.regs.round e) ∧
      (p.rst = false → s.regs.runR = false → p.start = true → sint p.roundsIn < 0 → r = s.regs.inputError) ∧
      (p.rst = false → s.regs.runR = false → p.start = true → sint p.roundsIn = 0 →
        r = s.regs.acceptZero p.op p.blockIn p.keyIn) ∧
      (p.rst = false → s.regs.runR = false → p.start = true → 0 < sint p.roundsIn →
        r = s.regs.acceptRounds p.op p.countField p.blockIn p.keyIn) ∧
      (p.rst = false → s.regs.runR = false → p.start = false → r = s.regs)

/-- The parameter ROUNDS_W of R8 is fixed for a machine (log 1): no instruction, no edge, no word and no script changes it; there
is a machine after reset for every ROUNDS_W, and `State.reset` is the one of the spec's default. -/
def Obligations.RoundsWNeverChanges : Prop :=
  (∀ (i : Instr) (s t : State), exec i s = .next t → t.roundsW = s.roundsW) ∧
  (∀ (k : Nat) (s t : State), s.after k = .next t → t.roundsW = s.roundsW) ∧
  (∀ (s : State) (nbits w : Nat), (s.withFetchWord nbits w).roundsW = s.roundsW) ∧
  (∀ (s t : State) (lines : List ScriptLine), s.loadScript lines = .ok t → t.roundsW = s.roundsW) ∧
  (∀ W : Nat, (State.resetAt W).roundsW = W) ∧ State.reset = State.resetAt 8

/-- R52, R90: no instruction and no edge ends in a fault or a refusal. -/
def Obligations.EveryEdgeCompletes : Prop :=
  (∀ s : State, ∃ t, step s = .next t) ∧ (∀ (i : Instr) (s : State), ∃ t, exec i s = .next t) ∧
  (∀ (s : State) (k : Nat), ∃ t, s.after k = .next t)

/-- R106. While running, the inputs other than `rst` do not matter, also at the final round: whatever else is presented, the machine
after the edge is the same, so the command is lost and not queued; its registers are those of the round. -/
def Obligations.StartWhileRunningIsDropped : Prop :=
  ∀ s : State, s.regs.runR = true → (s.portsAt 0).rst = false →
    (∀ q : Ports s.roundsW, q.rst = false → step { s with script := q :: s.script.tail } = step s) ∧
    ∃ (t : State) (e : Nat), step s = .next t ∧ s.Becomes (s.regs.round e) t

/-! ## What can write a register -/

/-- R17. What starts and ends running. -/
def Obligations.RunningStartsAndEndsOnlySo : Prop :=
  ∀ s t : State, step s = .next t →
    t.regs.runR =
      (if (s.portsAt 0).rst then false
       else if s.regs.runR then decide (s.regs.cntR ≠ 1)
       else (s.portsAt 0).start && decide (0 < sint (s.portsAt 0).roundsIn)) ∧
    t.outputs.busy = t.regs.runR

/-- R19, R20. Key and operation are captured at every non-error accept and never written while running. -/
def Obligations.KeyAndOperationAreCapturedOnlyAtAccepts : Prop :=
  ∀ s t : State, step s = .next t →
    ((s.portsAt 0).rst = true → t.regs.keyR = 0 ∧ t.regs.opR = false) ∧
    (s.regs.acceptsAt (s.portsAt 0) → t.regs.keyR = (s.portsAt 0).keyIn ∧ t.regs.opR = (s.portsAt 0).op) ∧
    ((s.portsAt 0).rst = false → ¬ s.regs.acceptsAt (s.portsAt 0) →
      t.regs.keyR = s.regs.keyR ∧ t.regs.opR = s.regs.opR)

/-- R23. The result register is written only by a successful completion (and by reset). -/
def Obligations.ResultIsWrittenOnlyByACompletion : Prop :=
  ∀ s t : State, step s = .next t →
    t.regs.resR =
      (if (s.portsAt 0).rst then 0
       else if s.regs.runR then (if s.regs.cntR = 1 then t.regs.sR else s.regs.resR)
       else if (s.portsAt 0).start ∧ sint (s.portsAt 0).roundsIn = 0 then (s.portsAt 0).blockIn
       else s.regs.resR) ∧
    t.outputs.resultOut = t.regs.resR

/-- R24. What sets and clears `done_r`. -/
def Obligations.DoneIsSetByCompletionsOnly : Prop :=
  ∀ s t : State, step s = .next t →
    t.regs.doneR =
      (if (s.portsAt 0).rst then false
       else if s.regs.runR then (decide (s.regs.cntR = 1) || s.regs.doneR)
       else if (s.portsAt 0).start then decide (sint (s.portsAt 0).roundsIn ≤ 0)
       else s.regs.doneR) ∧
    t.outputs.done = t.regs.doneR

/-- R25, R94. What sets and clears `err_r`: no return instruction, a NOP does not clear it, the next non-error accept does. -/
def Obligations.ErrorIsClearedByTheNextAcceptOrReset : Prop :=
  ∀ s t : State, step s = .next t →
    t.regs.errR =
      (if (s.portsAt 0).rst then false
       else if s.regs.runR then s.regs.errR
       else if (s.portsAt 0).start then decide (sint (s.portsAt 0).roundsIn < 0)
       else s.regs.errR) ∧
    t.outputs.error = t.regs.errR

/-! ## Invariants -/

/-- The invariants of R31 and R27 hold right after a reset, for any ROUNDS_W of at least 2 and whatever the registers held before,
power-up (R103) among them. -/
def Obligations.InvariantsHoldAfterReset : Prop :=
  (∀ W : Nat, 2 ≤ W → (State.resetAt W).Inv) ∧ State.reset.Inv ∧
  (∀ s t : State, 2 ≤ s.roundsW → exec .reset s = .next t → t.Inv) ∧
  (∀ W : Nat, 2 ≤ W → ∃ t, exec .reset (State.powerUpAt W) = .next t ∧ t.Inv)

/-- Every step from a state that meets the invariants of R31 keeps them, whatever the inputs and ROUNDS_W: the count stays between 1 and
MAX_ROUNDS while running, the index stays in range, no flag contradicts another. -/
def Obligations.StepKeepsTheInvariants : Prop :=
  ∀ s t : State, s.Inv → step s = .next t → t.Inv

/-- The legal combinations of R27, at every number of edges after a state that meets the invariants. -/
def Obligations.StatusCombinationsStayLegal : Prop :=
  ∀ (s t : State) (k : Nat), s.Inv → s.after k = .next t → t.outputs.legal

/-- R108 as a rule of the whole machine: `result_out` changes, but for a reset, only at an edge after which it is valid. -/
def Obligations.ResultChangesOnlyToAValidOne : Prop :=
  ∀ s t : State, s.Inv → step s = .next t → (s.portsAt 0).rst = false → t.outputs.resultOut ≠ s.outputs.resultOut →
    t.outputs.valid ∧ t.outputs.busy = false

/-! ## What a command computes -/

/-- R84, R86, R38: after the accepting edge and `j < n` running edges the command is busy, the state register holds the block
after `j` rounds in the order of the operation, and `result_out` is still the earlier one. -/
def Obligations.RoundsRunOneAnEdgeInOrder : Prop :=
  ∀ (s : State) (p : Ports s.roundsW) (n j : Nat),
    s.regs.runR = false → s.portsAt 0 = p → p.start = true → sint p.roundsIn = n → j < n → s.noResetFor (j + 1) →
    ∃ t, s.after (j + 1) = .next t ∧
      t.outputs = ⟨true, false, false, s.outputs.resultOut⟩ ∧
      t.regs.sR =
        join (runRounds p.keyIn ((if p.op then (List.range n).reverse else List.range n).take j) (split p.blockIn)) ∧
      t.regs.cntR.toNat = n - j ∧
      t.regs.idxR.toNat = (if p.op then n - 1 - j else j) ∧
      t.regs.keyR = p.keyIn ∧ t.regs.opR = p.op

/-- R84, R86: a positive-count command completes at the `n`-th edge after its accepting edge with encrypt or decrypt of what was
sampled there, whatever the later inputs and the earlier registers. -/
def Obligations.CommandComputesEncryptOrDecrypt : Prop :=
  ∀ (s : State) (p : Ports s.roundsW) (n : Nat),
    s.regs.runR = false → s.portsAt 0 = p → p.start = true → sint p.roundsIn = n → 1 ≤ n → s.noResetFor (n + 1) →
    ∃ t, s.after (n + 1) = .next t ∧
      t.outputs = ⟨false, true, false, if p.op then decryptRounds p.blockIn p.keyIn n else encryptRounds p.blockIn p.keyIn n⟩ ∧
      t.regs.cntR = 0

/-- R107. A start held high: a positive-count command is accepted again at the edge after its completion; a zero-count or negative
one is performed at every edge with the same outcome. -/
def Obligations.HeldStartRepeatsTheCommand : Prop :=
  ∀ (s : State) (p : Ports s.roundsW), s.regs.runR = false → p.start = true → p.rst = false →
    (∀ n : Nat, sint p.roundsIn = n → 1 ≤ n → (∀ j, j ≤ n + 1 → s.portsAt j = p) →
      ∃ t u, s.after (n + 1) = .next t ∧ s.after (n + 2) = .next u ∧
        t.outputs = ⟨false, true, false, cipherRounds p.op p.blockIn p.keyIn n⟩ ∧
        u.outputs = ⟨true, false, false, cipherRounds p.op p.blockIn p.keyIn n⟩ ∧
        u.regs.sR = p.blockIn ∧ u.regs.keyR = p.keyIn ∧ u.regs.opR = p.op ∧ (u.regs.cntR.toNat : Int) = n) ∧
    (sint p.roundsIn ≤ 0 →
      ∃ r : Registers s.roundsW, r.outputs = ⟨false, true, decide (sint p.roundsIn < 0), r.resR⟩ ∧
        ∀ m : Nat, 1 ≤ m → (∀ j, j < m → s.portsAt j = p) → ∃ t, s.after m = .next t ∧ s.Becomes r t)

/-- R102, R105: from any state at all, the power-up state among them, one reset edge and then a command: the registers are those
of R101 and then of the accept, with no other initialisation. -/
def Obligations.OneResetEdgeMakesTheMachineReady : Prop :=
  ∀ s : State, (s.portsAt 0).rst = true → (s.portsAt 1).rst = false → (s.portsAt 1).start = true →
    0 < sint (s.portsAt 1).roundsIn →
    ∃ t u, s.after 1 = .next t ∧ s.after 2 = .next u ∧ t.outputs = ⟨false, false, false, 0⟩ ∧
      s.Becomes ((Registers.reset s.roundsW).acceptRounds (s.portsAt 1).op (s.portsAt 1).countField
        (s.portsAt 1).blockIn (s.portsAt 1).keyIn) u

/-- R30 and the last invariant of R31: a machine with other registers but the same outputs and, if it is running, the same
registers, answers the same outputs after any number of edges: what an idle machine holds inside never shows. -/
def Obligations.IdleHiddenRegistersNeverShow : Prop :=
  ∀ (s : State) (r : Registers s.roundsW) (k : Nat), s.AlikeWith r →
    ∃ t u, s.after k = .next t ∧ { s with regs := r : State }.after k = .next u ∧ t.outputs = u.outputs

/-- R32 for the model's read-out (log 7): no edge reads or writes what F, ROUND_KEY and ROUND left there. -/
def Obligations.NoEdgeTouchesTheReadOut : Prop :=
  ∀ (s t : State) (q : Probe), step s = .next t →
    t.probe = s.probe ∧ step { s with probe := q } = .next { t with probe := q }

/-! ## Host scripts -/

/-- R54. The ports each script line drives, for any ROUNDS_W of at least 2 and every count it admits; a count outside them is no
line (log 12). -/
def Obligations.ScriptLinesDriveTheirPorts : Prop :=
  ∀ W : Nat, 2 ≤ W →
    ScriptLine.rst.items = .ok [.edge (⟨true, false, false, 0, 0, 0⟩ : Ports W)] ∧
    ScriptLine.nop.items = .ok [.edge (⟨false, false, false, 0, 0, 0⟩ : Ports W)] ∧
    (∀ (n : Int) (b : Block) (k : Key), -(2 ^ (W - 1) : Int) ≤ n → n ≤ Config.maxRounds W →
      ∃ v : BitVec W, (v.toNat : Int) = n % 2 ^ W ∧ sint v = n ∧
        (ScriptLine.enc n b k).items = .ok [.edge ⟨false, true, false, v, b, k⟩] ∧
        (ScriptLine.dec n b k).items = .ok [.edge ⟨false, true, true, v, b, k⟩]) ∧
    (∀ (n : Int) (b : Block) (k : Key), n < -(2 ^ (W - 1) : Int) ∨ Config.maxRounds W < n →
      (ScriptLine.enc n b k).items (W := W) = .error .roundsOutOfRange ∧
      (ScriptLine.dec n b k).items (W := W) = .error .roundsOutOfRange)

/-- R55, for any ROUNDS_W of at least 2: presented to an idle datapath, `ENCW n` and `DECW n` are the command and exactly `n` NOPs,
none for a zero or negative count; `IDLE m` is `m` NOPs. -/
def Obligations.WaitTakesOneNopARound : Prop :=
  ∀ (W : Nat) (e : Nat) (r : Registers W) (n : Int) (b : Block) (k : Key), 2 ≤ W → r.runR = false →
    -(2 ^ (W - 1) : Int) ≤ n → n ≤ Config.maxRounds W →
    expandScript e r [.encw n b k] =
      .ok (⟨false, true, false, BitVec.ofInt W n, b, k⟩ :: List.replicate n.toNat (Ports.idle W)) ∧
    expandScript e r [.decw n b k] =
      .ok (⟨false, true, true, BitVec.ofInt W n, b, k⟩ :: List.replicate n.toNat (Ports.idle W)) ∧
    (∀ m : Nat, expandScript e r [.idle m] = .ok (List.replicate m (Ports.idle W)))

/-- R55's `WAIT` on every machine, not yet reset ones among them (there it is the model's choice: log 12): its NOPs are those that
the machine's own steps take until the first state with `done = 1`, free values (log 5) included; where it is refused, no state
within MAX_ROUNDS NOPs has `done = 1`. -/
def Obligations.WaitMeetsTheStepsDone : Prop :=
  ∀ s : State,
    (∀ t, s.loadScript [.wait] = .ok t →
      ∃ m : Nat, t = { s with script := List.replicate m (Ports.idle s.roundsW) } ∧
        (∀ j, j < m → ∃ u, t.after j = .next u ∧ u.outputs.done = false) ∧
        ∃ u, t.after m = .next u ∧ u.outputs.done = true) ∧
    (∀ x, s.loadScript [.wait] = .error x →
      x = .waitNeverEnds ∧
      ∀ j, j ≤ Config.maxRounds s.roundsW → ∃ u,
        { s with script := List.replicate (Config.maxRounds s.roundsW) (Ports.idle s.roundsW) : State }.after j = .next u ∧
        u.outputs.done = false)
end

