-- ==== Sys2Proof/Laws/State.lean ====
section
/-!
SUPPORT. One lemma per field per update of the registers and of the state, so that no later proof unfolds a record update.
-/

namespace Sys2Proof.Laws

open Sys2Proof.Machine

/-! `reset` (R101) -/

@[simp] theorem reset_runR (W : Nat) : (Registers.reset W).runR = false := rfl
@[simp] theorem reset_sR (W : Nat) : (Registers.reset W).sR = 0 := rfl
@[simp] theorem reset_keyR (W : Nat) : (Registers.reset W).keyR = 0 := rfl
@[simp] theorem reset_opR (W : Nat) : (Registers.reset W).opR = false := rfl
@[simp] theorem reset_idxR (W : Nat) : (Registers.reset W).idxR = 0 := rfl
@[simp] theorem reset_cntR (W : Nat) : (Registers.reset W).cntR = 0 := rfl
@[simp] theorem reset_resR (W : Nat) : (Registers.reset W).resR = 0 := rfl
@[simp] theorem reset_doneR (W : Nat) : (Registers.reset W).doneR = false := rfl
@[simp] theorem reset_errR (W : Nat) : (Registers.reset W).errR = false := rfl

/-! `inputError` (R88) -/

@[simp] theorem inputError_runR {W : Nat} (r : Registers W) : r.inputError.runR = r.runR := rfl
@[simp] theorem inputError_sR {W : Nat} (r : Registers W) : r.inputError.sR = r.sR := rfl
@[simp] theorem inputError_keyR {W : Nat} (r : Registers W) : r.inputError.keyR = r.keyR := rfl
@[simp] theorem inputError_opR {W : Nat} (r : Registers W) : r.inputError.opR = r.opR := rfl
@[simp] theorem inputError_idxR {W : Nat} (r : Registers W) : r.inputError.idxR = r.idxR := rfl
@[simp] theorem inputError_cntR {W : Nat} (r : Registers W) : r.inputError.cntR = r.cntR := rfl
@[simp] theorem inputError_resR {W : Nat} (r : Registers W) : r.inputError.resR = r.resR := rfl
@[simp] theorem inputError_doneR {W : Nat} (r : Registers W) : r.inputError.doneR = true := rfl
@[simp] theorem inputError_errR {W : Nat} (r : Registers W) : r.inputError.errR = true := rfl

/-! `acceptZero` (R80) -/

@[simp] theorem acceptZero_runR {W : Nat} (r : Registers W) (op : Bool) (b : Block) (k : Key) : (r.acceptZero op b k).runR = r.runR := rfl
@[simp] theorem acceptZero_sR {W : Nat} (r : Registers W) (op : Bool) (b : Block) (k : Key) : (r.acceptZero op b k).sR = b := rfl
@[simp] theorem acceptZero_keyR {W : Nat} (r : Registers W) (op : Bool) (b : Block) (k : Key) : (r.acceptZero op b k).keyR = k := rfl
@[simp] theorem acceptZero_opR {W : Nat} (r : Registers W) (op : Bool) (b : Block) (k : Key) : (r.acceptZero op b k).opR = op := rfl
@[simp] theorem acceptZero_idxR {W : Nat} (r : Registers W) (op : Bool) (b : Block) (k : Key) : (r.acceptZero op b k).idxR = r.idxR := rfl
@[simp] theorem acceptZero_cntR {W : Nat} (r : Registers W) (op : Bool) (b : Block) (k : Key) : (r.acceptZero op b k).cntR = r.cntR := rfl
@[simp] theorem acceptZero_resR {W : Nat} (r : Registers W) (op : Bool) (b : Block) (k : Key) : (r.acceptZero op b k).resR = b := rfl
@[simp] theorem acceptZero_doneR {W : Nat} (r : Registers W) (op : Bool) (b : Block) (k : Key) : (r.acceptZero op b k).doneR = true := rfl
@[simp] theorem acceptZero_errR {W : Nat} (r : Registers W) (op : Bool) (b : Block) (k : Key) : (r.acceptZero op b k).errR = false := rfl

/-! `acceptRounds` (R81, R82) -/

@[simp] theorem acceptRounds_runR {W : Nat} (r : Registers W) (op : Bool) (n : BitVec (W - 1)) (b : Block) (k : Key) : (r.acceptRounds op n b k).runR = true := rfl
@[simp] theorem acceptRounds_sR {W : Nat} (r : Registers W) (op : Bool) (n : BitVec (W - 1)) (b : Block) (k : Key) : (r.acceptRounds op n b k).sR = b := rfl
@[simp] theorem acceptRounds_keyR {W : Nat} (r : Registers W) (op : Bool) (n : BitVec (W - 1)) (b : Block) (k : Key) : (r.acceptRounds op n b k).keyR = k := rfl
@[simp] theorem acceptRounds_opR {W : Nat} (r : Registers W) (op : Bool) (n : BitVec (W - 1)) (b : Block) (k : Key) : (r.acceptRounds op n b k).opR = op := rfl
@[simp] theorem acceptRounds_idxR {W : Nat} (r : Registers W) (op : Bool) (n : BitVec (W - 1)) (b : Block) (k : Key) : (r.acceptRounds op n b k).idxR = firstIndex op n := rfl
@[simp] theorem acceptRounds_cntR {W : Nat} (r : Registers W) (op : Bool) (n : BitVec (W - 1)) (b : Block) (k : Key) : (r.acceptRounds op n b k).cntR = n := rfl
@[simp] theorem acceptRounds_resR {W : Nat} (r : Registers W) (op : Bool) (n : BitVec (W - 1)) (b : Block) (k : Key) : (r.acceptRounds op n b k).resR = r.resR := rfl
@[simp] theorem acceptRounds_doneR {W : Nat} (r : Registers W) (op : Bool) (n : BitVec (W - 1)) (b : Block) (k : Key) : (r.acceptRounds op n b k).doneR = false := rfl
@[simp] theorem acceptRounds_errR {W : Nat} (r : Registers W) (op : Bool) (n : BitVec (W - 1)) (b : Block) (k : Key) : (r.acceptRounds op n b k).errR = false := rfl

/-! `innerRound` (R77) -/

@[simp] theorem innerRound_runR {W : Nat} (r : Registers W) (e : Nat) : (r.innerRound e).runR = r.runR := rfl
@[simp] theorem innerRound_sR {W : Nat} (r : Registers W) (e : Nat) : (r.innerRound e).sR = r.roundOut := rfl
@[simp] theorem innerRound_keyR {W : Nat} (r : Registers W) (e : Nat) : (r.innerRound e).keyR = r.keyR := rfl
@[simp] theorem innerRound_opR {W : Nat} (r : Registers W) (e : Nat) : (r.innerRound e).opR = r.opR := rfl
@[simp] theorem innerRound_idxR {W : Nat} (r : Registers W) (e : Nat) : (r.innerRound e).idxR = nextIndex e r.opR r.idxR := rfl
@[simp] theorem innerRound_cntR {W : Nat} (r : Registers W) (e : Nat) : (r.innerRound e).cntR = nextCount e r.cntR := rfl
@[simp] theorem innerRound_resR {W : Nat} (r : Registers W) (e : Nat) : (r.innerRound e).resR = r.resR := rfl
@[simp] theorem innerRound_doneR {W : Nat} (r : Registers W) (e : Nat) : (r.innerRound e).doneR = r.doneR := rfl
@[simp] theorem innerRound_errR {W : Nat} (r : Registers W) (e : Nat) : (r.innerRound e).errR = r.errR := rfl

/-! `finalRound` (R78) -/

@[simp] theorem finalRound_runR {W : Nat} (r : Registers W) : r.finalRound.runR = false := rfl
@[simp] theorem finalRound_sR {W : Nat} (r : Registers W) : r.finalRound.sR = r.roundOut := rfl
@[simp] theorem finalRound_keyR {W : Nat} (r : Registers W) : r.finalRound.keyR = r.keyR := rfl
@[simp] theorem finalRound_opR {W : Nat} (r : Registers W) : r.finalRound.opR = r.opR := rfl
@[simp] theorem finalRound_idxR {W : Nat} (r : Registers W) : r.finalRound.idxR = r.idxR := rfl
@[simp] theorem finalRound_cntR {W : Nat} (r : Registers W) : r.finalRound.cntR = 0 := rfl
@[simp] theorem finalRound_resR {W : Nat} (r : Registers W) : r.finalRound.resR = r.roundOut := rfl
@[simp] theorem finalRound_doneR {W : Nat} (r : Registers W) : r.finalRound.doneR = true := rfl
@[simp] theorem finalRound_errR {W : Nat} (r : Registers W) : r.finalRound.errR = r.errR := rfl

/-! The whole-state forms: `nextEdge` and `setRegs` are abbreviations for record updates -/

@[simp] theorem commandEdge_roundsW (s : State) (r : Registers s.roundsW) : (s.commandEdge r).roundsW = s.roundsW := rfl
@[simp] theorem commandEdge_regs (s : State) (r : Registers s.roundsW) :
    (s.commandEdge r).regs = if s.regs.runR then s.regs.round s.edge else r := rfl
@[simp] theorem commandEdge_probe (s : State) (r : Registers s.roundsW) : (s.commandEdge r).probe = s.probe := rfl
@[simp] theorem commandEdge_script (s : State) (r : Registers s.roundsW) : (s.commandEdge r).script = s.script := rfl
@[simp] theorem commandEdge_edge (s : State) (r : Registers s.roundsW) : (s.commandEdge r).edge = s.edge := rfl

/-! The machine right after a reset (R16, R101) -/

@[simp] theorem resetAt_roundsW (W : Nat) : (State.resetAt W).roundsW = W := rfl
@[simp] theorem resetAt_regs (W : Nat) : (State.resetAt W).regs = Registers.reset W := rfl
@[simp] theorem resetAt_script (W : Nat) : (State.resetAt W).script = [] := rfl
@[simp] theorem resetAt_edge (W : Nat) : (State.resetAt W).edge = 0 := rfl

/-! The output ports (R47) -/

@[simp] theorem outputs_busy (s : State) : s.outputs.busy = s.regs.runR := rfl
@[simp] theorem outputs_done (s : State) : s.outputs.done = s.regs.doneR := rfl
@[simp] theorem outputs_error (s : State) : s.outputs.error = s.regs.errR := rfl
@[simp] theorem outputs_resultOut (s : State) : s.outputs.resultOut = s.regs.resR := rfl

end Sys2Proof.Laws
end

