-- ==== Sys2Proof/Laws/Ops.lean ====
section
/-!
SUPPORT. What each shared operation can do, said once: the accepts, the running edge, the ports, the decoder, one step.
-/

namespace Sys2Proof.Laws

open Sys2Proof Sys2Proof.Machine

/-! ## Accepts and the running edge -/

theorem accept_zero {W : Nat} (r : Registers W) (op : Bool) (b : Block) (k : Key) :
    r.accept op 0 b k = r.acceptZero op b k := if_pos rfl

theorem accept_pos {W : Nat} (r : Registers W) (op : Bool) {n : BitVec (W - 1)} (h : n ≠ 0) (b : Block) (k : Key) :
    r.accept op n b k = r.acceptRounds op n b k := if_neg h

theorem round_final {W : Nat} (r : Registers W) (e : Nat) (h : r.cntR = 1) : r.round e = r.finalRound := if_pos h

theorem round_inner {W : Nat} (r : Registers W) (e : Nat) (h : r.cntR ≠ 1) : r.round e = r.innerRound e := if_neg h

theorem commandEdge_idle (s : State) (r : Registers s.roundsW) (h : s.regs.runR = false) :
    s.commandEdge r = s.setRegs r := by simp [State.commandEdge, h]

theorem commandEdge_running (s : State) (r : Registers s.roundsW) (h : s.regs.runR = true) :
    s.commandEdge r = s.setRegs (s.regs.round s.edge) := by simp [State.commandEdge, h]

/-- One less, where it fits. -/
theorem toNat_sub_one {w : Nat} {c : BitVec w} (h : c ≠ 0) : (c - 1).toNat + 1 = c.toNat := by
  have h0 : c.toNat ≠ 0 := fun h' => h (BitVec.eq_of_toNat_eq (by simpa using h'))
  have hc := c.isLt
  have h1 : (1 : BitVec w).toNat = 1 := by
    change 1 % 2 ^ w = 1
    exact Nat.mod_eq_of_lt (by omega)
  rw [BitVec.toNat_sub_of_le (by rw [BitVec.le_def, h1]; omega), h1]
  omega

/-- One more, where it fits. -/
theorem toNat_add_one {w : Nat} {c : BitVec w} (h : c.toNat + 1 < 2 ^ w) : (c + 1).toNat = c.toNat + 1 := by
  have h1 : (1 : BitVec w).toNat = 1 := by
    change 1 % 2 ^ w = 1
    exact Nat.mod_eq_of_lt (by omega)
  rw [BitVec.toNat_add, h1, Nat.mod_eq_of_lt h]

/-- The count steps down where it fits its register (R77). -/
theorem nextCount_toNat {W : Nat} (e : Nat) {c : BitVec (W - 1)} (h : c ≠ 0) : (nextCount e c).toNat + 1 = c.toNat := by
  rw [nextCount, if_neg h, toNat_sub_one h]

/-- The index steps up in encryption where it fits its register (R77). -/
theorem nextIndex_up {W : Nat} (e : Nat) {i : BitVec (W - 1)} (h : i.toNat + 1 < 2 ^ (W - 1)) :
    (nextIndex e false i).toNat = i.toNat + 1 := by
  have hi : i ≠ BitVec.allOnes (W - 1) := by
    intro h'; rw [h', BitVec.toNat_allOnes] at h; omega
  rw [nextIndex, if_neg Bool.false_ne_true, if_neg hi, toNat_add_one h]

/-- The index steps down in decryption where it fits its register (R77). -/
theorem nextIndex_down {W : Nat} (e : Nat) {i : BitVec (W - 1)} (h : i ≠ 0) :
    (nextIndex e true i).toNat + 1 = i.toNat := by
  rw [nextIndex, if_pos rfl, if_neg h, toNat_sub_one h]

/-- The first index of a decryption is `n - 1` (R82). -/
theorem firstIndex_decrypt {W : Nat} {n : BitVec (W - 1)} (h : n ≠ 0) : (firstIndex true n).toNat + 1 = n.toNat := by
  rw [firstIndex, if_pos rfl, toNat_sub_one h]

/-! ## Ports -/

/-- The inputs seen from the next edge are the inputs seen from here, one edge later. The registers make no difference. -/
theorem portsAt_succ (s : State) (r : Registers s.roundsW) (j : Nat) :
    (s.nextEdge.setRegs r).portsAt j = s.portsAt (j + 1) := by
  simp [State.portsAt, Nat.add_assoc, Nat.add_comm 1 j]

/-- The script's head is what the next edge samples. -/
theorem portsAt_zero (s : State) {p : Ports s.roundsW} {rest : List (Ports s.roundsW)}
    (h : s.script = p :: rest) : s.portsAt 0 = p := by simp [State.portsAt, h]

/-- The inputs depend on the script and the edge number only. -/
@[simp] theorem portsAt_setRegs (s : State) (r : Registers s.roundsW) (j : Nat) :
    (s.setRegs r).portsAt j = s.portsAt j := rfl

/-- The signed reading of R11 is the library's. -/
theorem sint_eq_toInt {N : Nat} (v : BitVec N) : sint v = v.toInt := by
  rw [sint, BitVec.toInt_eq_msb_cond]; split <;> simp

/-- A count that is not negative is the count field (R51). -/
theorem sint_of_not_msb {N : Nat} {v : BitVec N} (h : v.msb = false) : sint v = v.toNat := by simp [sint, h]

/-- A pattern with its sign bit set is negative (R43). -/
theorem sint_of_msb {N : Nat} {v : BitVec N} (h : v.msb = true) : sint v < 0 := by
  have hv := v.isLt
  simp only [sint, h, if_true]
  have : (v.toNat : Int) < 2 ^ N := by exact_mod_cast hv
  omega

/-- The sign of the round count is the top bit of `rounds_in` (R43). -/
theorem sint_neg_iff {N : Nat} (v : BitVec N) : sint v < 0 ↔ v.msb = true := by
  cases h : v.msb
  · simp [sint_of_not_msb h]
  · simp [sint_of_msb h]

/-- Without the sign bit the count field is the whole of `rounds_in` (R51). -/
theorem countField_toNat {W : Nat} {p : Ports W} (h : p.roundsIn.msb = false) :
    p.countField.toNat = p.roundsIn.toNat := by
  have hlt : p.roundsIn.toNat < 2 ^ (W - 1) := BitVec.toNat_lt_of_msb_false h
  simpa [Ports.countField, BitVec.toNat_setWidth] using Nat.mod_eq_of_lt hlt

/-- The zero-count form is the count field 0 (R49). -/
theorem countField_eq_zero {W : Nat} {p : Ports W} (h : p.roundsIn.msb = false) :
    p.countField = 0 ↔ sint p.roundsIn = 0 := by
  rw [sint_of_not_msb h]
  constructor
  · intro h0; have := countField_toNat h; rw [h0] at this; simpa using this.symm
  · intro h0; apply BitVec.eq_of_toNat_eq; rw [countField_toNat h]; simpa using h0

/-! ## One step -/

/-- The five things an edge can do to the registers, with their conditions. -/
theorem datapathStep_cases {W : Nat} (e : Nat) (p : Ports W) (r : Registers W) :
    (p.rst = true ∧ datapathStep e p r = Registers.reset W) ∨
    (p.rst = false ∧ r.runR = true ∧ datapathStep e p r = r.round e) ∨
    (p.rst = false ∧ r.runR = false ∧ p.start = true ∧ sint p.roundsIn < 0 ∧ datapathStep e p r = r.inputError) ∨
    (p.rst = false ∧ r.runR = false ∧ p.start = true ∧ sint p.roundsIn = 0 ∧
      datapathStep e p r = r.acceptZero p.op p.blockIn p.keyIn) ∨
    (p.rst = false ∧ r.runR = false ∧ p.start = true ∧ 0 < sint p.roundsIn ∧
      datapathStep e p r = r.acceptRounds p.op p.countField p.blockIn p.keyIn) ∨
    (p.rst = false ∧ r.runR = false ∧ p.start = false ∧ datapathStep e p r = r) := by
  cases h1 : p.rst <;> cases h2 : r.runR <;> cases h3 : p.start <;> simp [datapathStep, h1, h2, h3]
  rcases lt_trichotomy (sint p.roundsIn) 0 with h | h | h
  · simp [h]
  · simp [h]
  · refine .inr (.inr ⟨h, ?_⟩)
    cases h4 : p.op <;> simp [not_lt.mpr h.le, h.ne']

/-- An accept of a count that is not negative is the arm R75 gives it. -/
theorem accept_eq_datapathStep {W : Nat} (e : Nat) (p : Ports W) (r : Registers W) (h1 : p.rst = false)
    (h2 : r.runR = false) (h3 : p.start = true) (h4 : p.roundsIn.msb = false) :
    r.accept p.op p.countField p.blockIn p.keyIn = datapathStep e p r := by
  have hn : ¬ sint p.roundsIn < 0 := by simp [sint_of_not_msb h4]
  by_cases h0 : sint p.roundsIn = 0
  · have hc := (countField_eq_zero h4).mpr h0
    rw [hc, accept_zero]
    simp [datapathStep, h1, h2, h3, h0]
  · have hc : p.countField ≠ 0 := fun h => h0 ((countField_eq_zero h4).mp h)
    cases h5 : p.op <;> simp [datapathStep, h1, h2, h3, h0, hn, h5, accept_pos r _ hc]

/-- The one inversion lemma of a step: a next state, always, whose registers are what R75 makes of the sampled inputs. -/
theorem step_eq (s : State) :
    step s = .next { s with
      regs := datapathStep (s.edge + 1) (s.portsAt 0) s.regs, script := s.script.tail, edge := s.edge + 1 } := by
  rcases hp : s.portsAt 0 with ⟨rst, start, op, rounds, block, key⟩
  unfold step decode Ports.row
  rw [hp]
  cases rst
  case true => simp [exec, execReset, datapathStep]
  cases hr : s.regs.runR
  case true => simp [exec, execRoundStep, datapathStep, hr]
  cases start
  case false => simp [exec, execNop, datapathStep, hr, State.commandEdge]
  cases hm : rounds.msb
  case true => simp [exec, execIllegalRounds, datapathStep, hr, hm, State.commandEdge, sint_of_msb]
  cases op
  case false =>
    have h := accept_eq_datapathStep (s.edge + 1) ⟨false, true, false, rounds, block, key⟩ s.regs rfl hr rfl hm
    simp [exec, execEncrypt, State.commandEdge, hr, ← h]
  case true =>
    have h := accept_eq_datapathStep (s.edge + 1) ⟨false, true, true, rounds, block, key⟩ s.regs rfl hr rfl hm
    simp [exec, execDecrypt, State.commandEdge, hr, ← h]

/-- A step has a next state, and it is the only one. -/
theorem step_next_iff (s t : State) :
    step s = .next t ↔ t = { s with
      regs := datapathStep (s.edge + 1) (s.portsAt 0) s.regs, script := s.script.tail, edge := s.edge + 1 } := by
  rw [step_eq]
  constructor
  · intro h; injection h with h; exact h.symm
  · intro h; rw [h]

/-- No step changes the parameter `ROUNDS_W` (R8). -/
theorem step_roundsW {s t : State} (h : step s = .next t) : t.roundsW = s.roundsW := by
  rw [(step_next_iff s t).mp h]

/-- A run of `k + 1` edges is a step and then a run of `k`. -/
theorem after_succ (k : Nat) {s t : State} (h : step s = .next t) : s.after (k + 1) = t.after k := by
  simp only [State.after, Host.Core.run]
  rw [show Sys2Proof.core.step s = .next t from h]

/-- A run of `k + 1` edges is a run of `k` and then a step. -/
theorem after_last (k : Nat) : ∀ {s t : State}, s.after k = .next t → s.after (k + 1) = step t := by
  induction k with
  | zero =>
      intro s t h
      injection h with h
      subst h
      rw [after_succ 0 (step_eq s), step_eq]
      rfl
  | succ k ih =>
      intro s t h
      rw [after_succ _ (step_eq s)] at h ⊢
      exact ih h

theorem after_zero (s : State) : s.after 0 = .next s := rfl

/-- The registers of the machine after `k` edges, on the inputs of those edges. -/
def regsAfter (s : State) : Nat → Registers s.roundsW
  | 0 => s.regs
  | k + 1 => datapathStep (s.edge + k + 1) (s.portsAt k) (regsAfter s k)

/-- The machine after `k` edges: every run of edges in one equation. -/
theorem after_eq (s : State) (k : Nat) :
    s.after k = .next { s with regs := regsAfter s k, script := s.script.drop k, edge := s.edge + k } := by
  induction k with
  | zero => rfl
  | succ k ih =>
      rw [after_last k ih, step_eq]
      have hp : ({ s with regs := regsAfter s k, script := s.script.drop k, edge := s.edge + k } : State).portsAt 0 =
          s.portsAt k := by simp [State.portsAt]
      rw [hp, regsAfter, List.tail_drop]
      rfl

end Sys2Proof.Laws
end

