-- ==== Sys2Proof/Laws/PerInstr.lean ====
section
/-!
SUPPORT. What the encoder gives a well-formed instruction, and a statement about every instruction as syntax, one lemma per
constructor.
-/

namespace Sys2Proof.Laws

open Sys2Proof

/-- A legal count leaves the sign bit of `rounds_in` 0 (R43). -/
theorem legal_count_msb {W n : Nat} (hW : 2 ≤ W) (h : n ≤ Config.maxRounds W) : (BitVec.ofNat W n).msb = false := by
  have hp : 2 ^ W = 2 * 2 ^ (W - 1) := by rw [← Nat.pow_succ', Nat.succ_eq_add_one, Nat.sub_add_cancel (by omega)]
  have h1 : 0 < 2 ^ (W - 1) := Nat.two_pow_pos _
  unfold Config.maxRounds at h
  rw [BitVec.msb_eq_decide, BitVec.toNat_ofNat, Nat.mod_eq_of_lt (by omega)]
  simp only [decide_eq_false_iff_not]; omega

/-- A negative count in range sets the sign bit of `rounds_in` (R43). -/
theorem illegal_count_msb {W : Nat} {n : Int} (hW : 2 ≤ W) (h : -(2 ^ (W - 1) : Int) ≤ n) (h0 : n < 0) :
    (BitVec.ofInt W n).msb = true := by
  have hp : (2 ^ W : Int) = 2 * 2 ^ (W - 1) := by
    rw [← Int.pow_succ', Nat.sub_add_cancel (by omega)]
  have hb : (BitVec.ofInt W n).toInt = n := by
    rw [BitVec.toInt_ofInt]
    have h1 : (0 : Int) < 2 ^ (W - 1) := by positivity
    exact Int.bmod_eq_of_le_mul_two (by push_cast; omega) (by push_cast; omega)
  by_contra hm
  have := BitVec.toInt_eq_toNat_of_msb (Bool.eq_false_iff.mpr hm)
  omega

/-- A command of a legal count: its count is legal, and the ports of its encoding. -/
theorem encode_legal {W n : Nat} {op : Bool} {block : Block} {key : Key} {p : Ports W}
    (h : encode W (if op then .decrypt n block key else .encrypt n block key) = some p) :
    n ≤ Config.maxRounds W ∧ p = ⟨false, true, op, BitVec.ofNat W n, block, key⟩ := by
  by_cases hn : n ≤ Config.maxRounds W <;> cases op <;> simp [encode, Instr.wellFormed, Ports.idle, hn] at h <;>
    exact ⟨hn, h.symm⟩

/-- A command of an illegal count: its count is in range, and the ports of its encoding. -/
theorem encode_illegal {W : Nat} {op : Bool} {n : Int} {p : Ports W} (h : encode W (.illegalRounds op n) = some p) :
    (-(2 ^ (W - 1) : Int) ≤ n ∧ n < 0) ∧ p = ⟨false, true, op, BitVec.ofInt W n, 0, 0⟩ := by
  by_cases hn : -(2 ^ (W - 1) : Int) ≤ n ∧ n < 0
  · simp [encode, Instr.wellFormed, Ports.idle, hn.1, hn.2] at h
    exact ⟨hn, h.symm⟩
  · simp [encode, Instr.wellFormed, hn] at h

namespace EncodingRow

/-- The encoding of an instruction selects the instruction's row, for any ROUNDS_W, in the states the row is listed for; at the
default width its `CTRL` word fits the row's mask and match as the opcode table prints them (R49, R50). -/
def Statement (i : Instr) : Prop :=
  (∀ (W : Nat) (p : Ports W) (row : CtrlRow) (run : Bool), 2 ≤ W →
    encode W i = some p → i.row = some row → row.listedWhen run = true → p.row run = row) ∧
  (∀ (p : Ports Config.defaultRoundsW) (row : CtrlRow), encode Config.defaultRoundsW i = some p → i.row = some row →
    p.ctrl &&& row.mask Config.defaultRoundsW = row.pattern Config.defaultRoundsW)

theorem reset : Statement .reset :=
  ⟨by rintro W _ _ run _ ⟨⟩ ⟨⟩ _; rfl, by rintro _ _ ⟨⟩ ⟨⟩; decide⟩

theorem nop : Statement .nop :=
  ⟨by rintro W _ _ run _ ⟨⟩ ⟨⟩ h; cases run <;> [rfl; cases h], by rintro _ _ ⟨⟩ ⟨⟩; decide⟩

theorem encrypt (n : Nat) (block : Block) (key : Key) : Statement (.encrypt n block key) := by
  constructor
  · rintro W p _ run hW hp ⟨⟩ hr
    obtain ⟨hn, rfl⟩ := encode_legal (op := false) hp
    cases run
    · simp [Ports.row, legal_count_msb hW hn]
    · cases hr
  · rintro p _ hp ⟨⟩
    obtain ⟨hn, rfl⟩ := encode_legal (op := false) hp
    have key : ∀ v : BitVec 8, v.msb = false → BitVec.cons false (BitVec.cons true (BitVec.cons false v)) &&&
      CtrlRow.mask 8 .encrypt = CtrlRow.pattern 8 .encrypt := by decide
    exact key _ (legal_count_msb (by decide) hn)

theorem decrypt (n : Nat) (block : Block) (key : Key) : Statement (.decrypt n block key) := by
  constructor
  · rintro W p _ run hW hp ⟨⟩ hr
    obtain ⟨hn, rfl⟩ := encode_legal (op := true) hp
    cases run
    · simp [Ports.row, legal_count_msb hW hn]
    · cases hr
  · rintro p _ hp ⟨⟩
    obtain ⟨hn, rfl⟩ := encode_legal (op := true) hp
    have key : ∀ v : BitVec 8, v.msb = false → BitVec.cons false (BitVec.cons true (BitVec.cons true v)) &&&
      CtrlRow.mask 8 .decrypt = CtrlRow.pattern 8 .decrypt := by decide
    exact key _ (legal_count_msb (by decide) hn)

theorem illegalRounds (op : Bool) (n : Int) : Statement (.illegalRounds op n) := by
  constructor
  · rintro W p _ run hW hp ⟨⟩ hr
    obtain ⟨hn, rfl⟩ := encode_illegal hp
    cases run
    · simp [Ports.row, illegal_count_msb hW hn.1 hn.2]
    · cases hr
  · rintro p _ hp ⟨⟩
    obtain ⟨hn, rfl⟩ := encode_illegal hp
    have key : ∀ v : BitVec 8, v.msb = true → ∀ op, BitVec.cons false (BitVec.cons true (BitVec.cons op v)) &&&
      CtrlRow.mask 8 .illegalRounds = CtrlRow.pattern 8 .illegalRounds := by decide
    exact key _ (illegal_count_msb (by decide) hn.1 hn.2) op

theorem roundStep : Statement .roundStep :=
  ⟨by rintro W _ _ run _ ⟨⟩ ⟨⟩ h; cases run <;> [cases h; rfl], by rintro _ _ ⟨⟩ ⟨⟩; decide⟩

theorem f (w : Word) : Statement (.f w) := ⟨by rintro _ _ _ _ _ _ ⟨⟩, by rintro _ _ _ ⟨⟩⟩

theorem roundKey (key : Key) (i : Nat) : Statement (.roundKey key i) := ⟨by rintro _ _ _ _ _ _ ⟨⟩, by rintro _ _ _ ⟨⟩⟩

theorem round (x : Words) (k : Word) : Statement (.round x k) := ⟨by rintro _ _ _ _ _ _ ⟨⟩, by rintro _ _ _ ⟨⟩⟩

end EncodingRow

end Sys2Proof.Laws
end

