-- ==== Sys2Proof/Tests/Slice0.lean ====
section
/-!
SUPPORT. Small tests (expected values from 95_test_vectors.md and the rules' examples) and, for each statement with hypotheses, a
witness that meets them.
-/

namespace Sys2Proof.Tests

open Sys2Proof Sys2Proof.Machine

/-! ## Helpers -/

/-- The next state, if there is one. -/
def nextOf : Host.Outcome State Fault Refusal → Option State
  | .next t => some t
  | .fault _ => none
  | .refused _ => none

/-- The read-out of a next state. -/
def probeOf : Host.Outcome State Fault Refusal → Option Probe
  | .next t => some t.probe
  | .fault _ => none
  | .refused _ => none

/-- A machine with the given registers and inputs to come. -/
abbrev machine (r : Registers 8) (script : List (Ports 8)) : State :=
  { roundsW := 8, regs := r, probe := ⟨0, 0, 0⟩, script := script, edge := 0 }

/-- A machine with the given registers whose script of `edges` lines is used up. -/
def machineAfter (edges : Nat) (r : Registers 8) : State :=
  { State.resetAt 8 with regs := r, edge := edges }

/-- Ports at an edge, from `CTRL` and the data. -/
def line (ctrl : BitVec 11) (block : Block) (key : Key) : Ports 8 := Ports.ofCtrl ctrl block key

/-- Idle registers with a stale result (95_test_vectors.md V12). -/
def idleRegs : Registers 8 :=
  { Registers.reset 8 with resR := 0x76518915762476AC, doneR := true }

/-- Running encryption at its first round of eight (V8). -/
def firstOfEight : Registers 8 :=
  { Registers.reset 8 with runR := true, sR := 0x1234567890ABCDEF, cntR := 8 }

/-- Running encryption at its final round (V9). -/
def lastOfEight : Registers 8 :=
  { Registers.reset 8 with runR := true, sR := 0x7624891376AC7699, idxR := 7, cntR := 1 }

/-- Running decryption with two rounds to go (V10). -/
def decryptTwoLeft : Registers 8 :=
  { Registers.reset 8 with
    runR := true, sR := 0x13177615012389AB, keyR := 0xFEDCBA9876543210, opR := true, idxR := 1, cntR := 2 }

/-! ## Well-formedness and decoding -/

theorem test_wf_refuses_index_128 : (Instr.roundKey 0 128).wellFormed 8 = false := by decide
theorem test_wf_refuses_legal_count_128 :
    (Instr.encrypt 128 0 0).wellFormed 8 = false ∧ (Instr.decrypt 128 0 0).wellFormed 8 = false := by decide
theorem test_wf_refuses_illegal_count_0 : (Instr.illegalRounds false 0).wellFormed 8 = false := by decide
theorem test_wf_refuses_illegal_count_below_range : (Instr.illegalRounds true (-129)).wellFormed 8 = false := by decide
/-- The largest numbers at `ROUNDS_W = 8` (R8, R43), which `ROUNDS_W = 4` does not admit. -/
theorem test_wf_takes_the_bounds :
    ∀ i ∈ [Instr.roundKey 0 127, .encrypt 127 0 0, .decrypt 127 0 0, .illegalRounds true (-128)],
      i.wellFormed 8 = true ∧ i.wellFormed 4 = false := by decide

/-- R49's row RESET with every other bit 1. -/
theorem test_decode_reset : decode false (line 0x7FF 1 1) = .reset := by decide
/-- R49's row NOP with the ignored bits 1. -/
theorem test_decode_nop : decode false (line 0x1FF 1 1) = .nop := by decide
/-- R54's example `ENC 8, 0x1234567890ABCDEF, 0x0`. -/
theorem test_decode_encrypt : decode false (line 0x208 0x1234567890ABCDEF 0) = .encrypt 8 0x1234567890ABCDEF 0 := by decide
/-- P3's `DEC 3`. -/
theorem test_decode_decrypt :
    decode false (line 0x303 0x0123456789ABCDEF 0xFEDCBA9876543210) =
      .decrypt 3 0x0123456789ABCDEF 0xFEDCBA9876543210 := by decide
/-- V4: `op = 1`, `rounds_in = 0x80` (-128). -/
theorem test_decode_illegal : decode false (line 0x380 0 0) = .illegalRounds true (-128) := by decide
/-- P5: a start while running. -/
theorem test_decode_roundStep : decode true (line 0x202 0xFFFFFFFFFFFFFFFF 0) = .roundStep := by decide
/-- A reset while running (R50). -/
theorem test_decode_reset_running : decode true (line 0x400 0 0) = .reset := by decide
/-- P6's `DEC 127` encodes as `0x37F`. -/
theorem test_encode_decrypt : (encode 8 (.decrypt 127 0 0)).map Ports.ctrl = some (0x37F : BitVec 11) := by decide
/-- P3's `ENC -1` encodes as `0x2FF`. -/
theorem test_encode_illegal : (encode 8 (.illegalRounds false (-1))).map Ports.ctrl = some (0x2FF : BitVec 11) := by decide
theorem test_table_word_with_operands :
    decodeTableWord 144 (0x301 + 0x0000FF0000000000 * 2 ^ 16 + 0xFFFFFFFFFFFFFFFF * 2 ^ 80) =
      some (.decrypt 1 0x0000FF0000000000 0xFFFFFFFFFFFFFFFF) := by decide
theorem test_table_word_above_ctrl : decodeTableWord 16 0x800 = none := by decide
/-- R8, R48 at `ROUNDS_W = 4`: `CTRL` is `{rst, start, op, rounds_in}` in 7 bits, 0x27 the start of 7 rounds, 0x28 of -8. -/
theorem test_decode_at_width_4 :
    decodeTableBits 4 8 0x27 = some (.encrypt 7 0 0) ∧ decodeTableBits 4 8 0x28 = some (.illegalRounds false (-8)) ∧
    decodeTableBits 4 8 0x80 = none := by decide

/-! ## The sub-blocks (sections 2.1 to 2.3) -/

theorem test_f : probeOf (exec (.f 0xABCD) State.reset) = some ⟨0x5419, 0, 0⟩ := by decide
theorem test_f_low_bits : wordTransformF 0xFF07 = 0 := by decide
theorem test_roundKey : probeOf (exec (.roundKey 0x0123456789ABCDEF 7) State.reset) = some ⟨0, 0x0C84, 0⟩ := by decide
theorem test_roundKey_fill : roundKey 0x8000000000000001 15 = 0x8000 := by decide
theorem test_round :
    probeOf (exec (.round ⟨0x1234, 0x5678, 0x90AB, 0xCDEF⟩ 0xFFFF) State.reset) =
      some ⟨0, 0, 0x765C6F15123490AB⟩ := by decide
theorem test_round_zero_sum : roundFunction ⟨0x1111, 0x1111, 0x1111, 0x1111⟩ 0x1111 = ⟨0, 0xEE02, 0x1111, 0x1111⟩ := by decide

/-! ## The functions (section 2.4) -/

theorem test_encryptRounds : encryptRounds 0x0123456789ABCDEF 0xFEDCBA9876543210 3 = 0xBC8AFF00D9110000 := by decide
theorem test_decryptRounds : decryptRounds 0x0123456789ABCDEF 0xFEDCBA9876543210 3 = 0xBC8AEC02CA061317 := by decide

/-! ## One edge (section 2.6) -/

/-- V1 and V11. -/
theorem test_reset_aborts :
    nextOf (step (machine firstOfEight [line 0x608 7 7])) = some (machineAfter 1 (Registers.reset 8)) := by decide
/-- V2. -/
theorem test_nop : nextOf (step (machine idleRegs [line 0 0 0])) = some (machineAfter 1 idleRegs) := by decide
/-- V3. -/
theorem test_illegal_minus_one :
    nextOf (step (machine (Registers.reset 8) [line 0x2FF 0x1111 0])) =
      some (machineAfter 1 { Registers.reset 8 with doneR := true, errR := true }) := by decide
/-- V5. -/
theorem test_zero_count_clears_error :
    nextOf (step (machine { Registers.reset 8 with doneR := true, errR := true }
      [line 0x300 0xDEADBEEFCAFEF00D 0x0123456789ABCDEF])) =
      some (machineAfter 1 { Registers.reset 8 with
        sR := 0xDEADBEEFCAFEF00D, keyR := 0x0123456789ABCDEF, opR := true, resR := 0xDEADBEEFCAFEF00D, doneR := true }) := by
  decide
/-- V12. -/
theorem test_encrypt_accept :
    nextOf (step (machine idleRegs [line 0x201 0 0xFFFFFFFFFFFFFFFF])) =
      some (machineAfter 1 { Registers.reset 8 with
        runR := true, keyR := 0xFFFFFFFFFFFFFFFF, cntR := 1, resR := 0x76518915762476AC }) := by decide
/-- V7. -/
theorem test_decrypt_accept :
    nextOf (step (machine (Registers.reset 8) [line 0x37F 0x1234567890ABCDEF 0x0123456789ABCDEF])) =
      some (machineAfter 1 { Registers.reset 8 with
        runR := true, sR := 0x1234567890ABCDEF, keyR := 0x0123456789ABCDEF, opR := true, idxR := 126, cntR := 127 }) := by
  decide
/-- V8. -/
theorem test_inner_round_drops_start :
    nextOf (step (machine firstOfEight [line 0x205 5 5])) =
      some (machineAfter 1 { firstOfEight with sR := 0x765C6F15123490AB, idxR := 1, cntR := 7 }) := by decide
/-- V9. -/
theorem test_final_round :
    nextOf (step (machine lastOfEight [line 0 0 0])) =
      some (machineAfter 1 { lastOfEight with
        runR := false, sR := 0x76518915762476AC, resR := 0x76518915762476AC, cntR := 0, doneR := true }) := by decide
/-- V10. -/
theorem test_inner_round_decrypt :
    nextOf (step (machine decryptTwoLeft [line 0x205 0 0])) =
      some (machineAfter 1 { decryptTwoLeft with sR := 0xCA06FE0413170123, idxR := 0, cntR := 1 }) := by decide
/-- The fetch word of `ENC 8` is the first edge after reset. -/
theorem test_withFetchWord :
    nextOf (step (State.reset.withFetchWord 16 0x208)) =
      some (machineAfter 1 { Registers.reset 8 with runR := true, cntR := 8 }) := by decide

/-- R8 and R78 at `ROUNDS_W = 4`: the final round of a machine of that width (the round of V9). -/
theorem test_final_round_at_width_4 :
    nextOf (step { State.resetAt 4 with
      regs := { Registers.reset 4 with runR := true, sR := 0x7624891376AC7699, idxR := 7, cntR := 1 }, script := [Ports.idle 4] }) =
      some { State.resetAt 4 with
        regs := { Registers.reset 4 with
          sR := 0x76518915762476AC, idxR := 7, resR := 0x76518915762476AC, doneR := true }, edge := 1 } := by decide
/-- R82 at `ROUNDS_W = 4`: `DEC 7`, the largest count of that width, from its fetch word. -/
theorem test_withFetchWord_at_width_4 :
    nextOf (step ((State.resetAt 4).withFetchWord 8 0x37)) =
      some { State.resetAt 4 with
        regs := { Registers.reset 4 with runR := true, opR := true, idxR := 6, cntR := 7 }, edge := 1 } := by decide

/-! ## Scripts (R54, R55) -/

theorem test_parse_line :
    parseScript "DECW 3, 0x0F, 0xa0 ; c".toList = .ok [.decw 3 0x0F 0xA0] := by decide
theorem test_parse_negative : parseScript "ENC -1, 0x1111, 0x0\n\nRST".toList = .ok [.enc (-1) 0x1111 0, .rst] := by decide
theorem test_parse_refuses : parseScript "JMP 5".toList = .error .badLine := by decide
theorem test_expand_encw :
    expandScript 0 (Registers.reset 8) [.encw 2 5 6] =
      .ok [line 0x202 5 6, Ports.idle 8, Ports.idle 8] := by decide
theorem test_wait_of_an_idle_machine_never_ends : nopsUntilDone 3 0 (Registers.reset 8) = none := by decide

/-! ## Witnesses: for each statement of Obligations.lean with hypotheses, data that meets them -/

theorem witness_WordTransformFollowsItsPseudocode : (0x0000 : Word) >>> 3 = (0x0007 : Word) >>> 3 := by decide

theorem witness_RoundKeyFollowsItsPseudocode : 16 ≤ 16 ∧ 8 ≤ 8 := by decide

theorem witness_RoundComputesItsFourWords : (0x8AFA : Word) = 0x1234 ^^^ 0x5678 ^^^ 0xCEB6 := by decide

/-- Two keys that differ in bit 32 only. -/
theorem witness_SubkeySelectsInvertedKeyBits :
    let q : Registers 8 := { idleRegs with keyR := 0x100000000 }
    q.idxR = idleRegs.idxR ∧ (∀ b : Nat, b < 32 → q.keyR.getLsbD b = idleRegs.keyR.getLsbD b) ∧ q.keyR ≠ idleRegs.keyR := by
  decide

theorem witness_EncryptAndDecryptAreTheRoundLoops : (-1 : Int) < 0 := by decide

theorem witness_EqualSubkeysMakeDecryptEncrypt : ∀ i : Nat, i < 9 → roundKey 0 i = roundKey 0 0 := by decide

theorem witness_EveryCtrlValueFitsExactlyOneRow :
    2 ≤ 2 ∧ CtrlRow.roundStep.listedWhen true = true ∧ CtrlRow.illegalRounds.listedWhen false = true := by decide

theorem witness_DecodeOfEncodeIsTheInstruction :
    (∃ p row, encode 8 (.encrypt 127 5 6) = some p ∧ (Instr.encrypt 127 5 6).row = some row ∧ row.listedWhen false = true) ∧
    (∃ p row, encode 2 .roundStep = some p ∧ Instr.roundStep.row = some row ∧ row.listedWhen true = true) ∧
    (∃ p row, encode 8 .reset = some p ∧ Instr.reset.row = some row ∧ row.listedWhen true = true) :=
  ⟨⟨_, _, rfl, rfl, rfl⟩, ⟨_, _, rfl, rfl, rfl⟩, ⟨_, _, rfl, rfl, rfl⟩⟩

theorem witness_RoundCountIsTwosComplement : 2 ≤ 8 ∧ 0 ≤ sint (line 0x27F 0 0).roundsIn := by decide

theorem witness_ResetClearsEveryRegister : ((machine firstOfEight [line 0x400 0 0]).portsAt 0).rst = true := by decide

theorem witness_NopKeepsEveryRegister :
    let s := machine idleRegs [line 0x1FF 0 0]
    s.regs.runR = false ∧ (s.portsAt 0).rst = false ∧ (s.portsAt 0).start = false := by decide

theorem witness_EncryptAcceptLoadsTheCommand :
    let s := machine idleRegs []
    s.regs.runR = false ∧ (1 ≤ 1 ∧ 1 ≤ Config.maxRounds s.roundsW) ∧ (1 ≤ 127 ∧ 127 ≤ Config.maxRounds s.roundsW) := by decide

/-- At the smallest `ROUNDS_W`, where the one positive count is 1. -/
theorem witness_DecryptAcceptLoadsTheCommand :
    (State.resetAt 2).regs.runR = false ∧ 1 ≤ 1 ∧ 1 ≤ Config.maxRounds (State.resetAt 2).roundsW := by decide

theorem witness_ZeroRoundsCompleteAtOnce : (machine idleRegs []).regs.runR = false := by decide

theorem witness_IllegalRoundsTakesTheErrorCompletion : State.reset.regs.runR = false ∧ (-128 : Int) < 0 := by decide

/-- The clause on the count, and each clause on the index at its boundary. -/
theorem witness_InnerRoundStepsStateCountAndIndex :
    let up := machine { firstOfEight with idxR := 126, cntR := 2 } []
    let down := machine decryptTwoLeft []
    (up.regs.runR = true ∧ up.regs.cntR ≠ 1 ∧ up.regs.cntR ≠ 0 ∧ up.regs.opR = false ∧
      up.regs.idxR.toNat < 2 ^ (up.roundsW - 1) - 1) ∧
    (down.regs.runR = true ∧ down.regs.cntR ≠ 1 ∧ down.regs.opR = true ∧ down.regs.idxR ≠ 0) := by decide

theorem witness_FinalRoundWritesTheResult :
    (machine lastOfEight []).regs.runR = true ∧ (machine lastOfEight []).regs.cntR = 1 := by decide

theorem witness_CommandsOutsideTheirStateAreDropped :
    (machine firstOfEight []).regs.runR = true ∧ (machine idleRegs []).regs.runR = false := by decide

theorem witness_StepRunsTheDecodedInstruction :
    (machine idleRegs [line 0x208 0 0]).script = line 0x208 0 0 :: [] ∧
    State.reset.regs.runR = false ∧ decodeTableBits State.reset.roundsW 16 0x2FF = some (.illegalRounds false (-1)) := by decide

/-- One state and line for each arm of R75. -/
theorem witness_StepFollowsThePriorityList :
    (line 0x6FF 0 0).rst = true ∧
    ((line 0x208 0 0).rst = false ∧ firstOfEight.runR = true) ∧
    ((line 0x280 0 0).rst = false ∧ idleRegs.runR = false ∧ (line 0x280 0 0).start = true ∧
      sint (line 0x280 0 0).roundsIn < 0) ∧
    ((line 0x200 0 0).rst = false ∧ (line 0x200 0 0).start = true ∧ sint (line 0x200 0 0).roundsIn = 0) ∧
    ((line 0x27F 0 0).rst = false ∧ (line 0x27F 0 0).start = true ∧ 0 < sint (line 0x27F 0 0).roundsIn) ∧
    ((line 0x0FF 0 0).rst = false ∧ (line 0x0FF 0 0).start = false) := by decide

theorem witness_RoundsWNeverChanges :
    (∃ t, exec (.encrypt 5 6 7) State.reset = .next t) ∧ (∃ t, (machine idleRegs [line 0 0 0, line 0x201 5 6]).after 2 = .next t) ∧
    (∃ t, State.reset.loadScript [.enc 1 5 6, .idle 2] = .ok t) := ⟨⟨_, rfl⟩, ⟨_, rfl⟩, ⟨_, rfl⟩⟩

/-- A start and a NOP at the final round. -/
theorem witness_StartWhileRunningIsDropped :
    let s := machine lastOfEight [line 0x205 1 2]
    s.regs.runR = true ∧ (s.portsAt 0).rst = false ∧ (Ports.idle s.roundsW).rst = false := by decide

theorem witness_RunningStartsAndEndsOnlySo : ∃ t, step (machine lastOfEight [line 0 0 0]) = .next t := ⟨_, rfl⟩

theorem witness_KeyAndOperationAreCapturedOnlyAtAccepts :
    (∃ t, step (machine idleRegs [line 0x300 5 6]) = .next t) ∧
    (machine idleRegs [line 0x300 5 6]).regs.acceptsAt ((machine idleRegs [line 0x300 5 6]).portsAt 0) ∧
    ((line 0x400 0 0).rst = true) ∧
    ((line 0x3FF 0 0).rst = false ∧ ¬ idleRegs.acceptsAt (line 0x3FF 0 0)) :=
  ⟨⟨_, rfl⟩, by unfold Registers.acceptsAt; decide, by decide, by unfold Registers.acceptsAt; decide⟩

theorem witness_ResultIsWrittenOnlyByACompletion : ∃ t, step (machine idleRegs [line 0x200 5 6]) = .next t := ⟨_, rfl⟩

theorem witness_DoneIsSetByCompletionsOnly : ∃ t, step (machine idleRegs [line 0x201 5 6]) = .next t := ⟨_, rfl⟩

theorem witness_ErrorIsClearedByTheNextAcceptOrReset : ∃ t, step (machine idleRegs [line 0x2FF 5 6]) = .next t := ⟨_, rfl⟩

theorem witness_InvariantsHoldAfterReset :
    2 ≤ (machine decryptTwoLeft []).roundsW ∧ ∃ t, exec .reset (machine decryptTwoLeft []) = .next t := ⟨by decide, _, rfl⟩

/-- A running state at the largest count meets the invariants. -/
theorem witness_StepKeepsTheInvariants :
    let s := machine { firstOfEight with cntR := 127 } [line 0 0 0]
    s.Inv ∧ ∃ t, step s = .next t :=
  ⟨⟨by decide, by constructor <;> decide⟩, ⟨_, rfl⟩⟩

theorem witness_StatusCombinationsStayLegal :
    (machine decryptTwoLeft [line 0 0 0, line 0 0 0]).Inv ∧
    ∃ t, (machine decryptTwoLeft [line 0 0 0, line 0 0 0]).after 2 = .next t :=
  ⟨⟨by decide, by constructor <;> decide⟩, ⟨_, rfl⟩⟩

theorem witness_ResultChangesOnlyToAValidOne :
    let s := machine lastOfEight [line 0 0 0]
    s.Inv ∧ (∃ t, step s = .next t ∧ t.outputs.resultOut ≠ s.outputs.resultOut) ∧ (s.portsAt 0).rst = false :=
  ⟨⟨by decide, by constructor <;> decide⟩, ⟨_, rfl, by decide⟩, by decide⟩

/-- The host lines of a command of `n` rounds and `n` lines after it. -/
abbrev commandScript (p : Ports 8) (n : Nat) : State :=
  machine idleRegs (p :: List.replicate n (Ports.idle 8))

theorem witness_RoundsRunOneAnEdgeInOrder :
    let s := commandScript (line 0x308 5 6) 8
    s.regs.runR = false ∧ s.portsAt 0 = line 0x308 5 6 ∧ (line 0x308 5 6).start = true ∧
      sint (line 0x308 5 6).roundsIn = (8 : Nat) ∧ 7 < 8 ∧ s.noResetFor 8 := by
  unfold State.noResetFor; decide

/-- The smallest and the largest positive count. -/
theorem witness_CommandComputesEncryptOrDecrypt :
    (let s := commandScript (line 0x201 5 6) 1
     s.regs.runR = false ∧ s.portsAt 0 = line 0x201 5 6 ∧ (line 0x201 5 6).start = true ∧
      sint (line 0x201 5 6).roundsIn = (1 : Nat) ∧ s.noResetFor 2) ∧
    (let s := commandScript (line 0x37F 5 6) 127
     s.regs.runR = false ∧ s.portsAt 0 = line 0x37F 5 6 ∧ (line 0x37F 5 6).start = true ∧
      sint (line 0x37F 5 6).roundsIn = (127 : Nat) ∧ s.noResetFor 128) := by
  unfold State.noResetFor; decide

theorem witness_HeldStartRepeatsTheCommand :
    idleRegs.runR = false ∧
    ((line 0x201 5 6).start = true ∧ (line 0x201 5 6).rst = false ∧ sint (line 0x201 5 6).roundsIn = (1 : Nat) ∧
      ∀ j, j ≤ 2 → (machine idleRegs (List.replicate 3 (line 0x201 5 6))).portsAt j = line 0x201 5 6) ∧
    ((line 0x2FF 5 6).start = true ∧ (line 0x2FF 5 6).rst = false ∧ sint (line 0x2FF 5 6).roundsIn ≤ 0 ∧
      ∀ j, j < 2 → (machine idleRegs (List.replicate 2 (line 0x2FF 5 6))).portsAt j = line 0x2FF 5 6) := by decide

theorem witness_OneResetEdgeMakesTheMachineReady :
    let s := machine firstOfEight [line 0x400 0 0, line 0x201 5 6]
    (s.portsAt 0).rst = true ∧ (s.portsAt 1).rst = false ∧ (s.portsAt 1).start = true ∧
      0 < sint (s.portsAt 1).roundsIn := by decide

/-- An idle machine and other registers that do not show; a running machine and its own. -/
theorem witness_IdleHiddenRegistersNeverShow :
    (machine idleRegs []).AlikeWith ({ idleRegs with keyR := 1, sR := 2, opR := true, idxR := 3 } : Registers 8) ∧
    (machine firstOfEight []).AlikeWith firstOfEight :=
  ⟨⟨rfl, by decide⟩, ⟨rfl, fun _ => rfl⟩⟩

theorem witness_NoEdgeTouchesTheReadOut : ∃ t, step (machine firstOfEight [line 0 0 0]) = .next t := ⟨_, rfl⟩

/-- The bounds of the counts at `ROUNDS_W = 8`, and the counts next to them. -/
theorem witness_ScriptLinesDriveTheirPorts :
    2 ≤ 8 ∧ (-(2 ^ (8 - 1) : Int) ≤ -128 ∧ (-128 : Int) ≤ Config.maxRounds 8) ∧
    (-(2 ^ (8 - 1) : Int) ≤ 127 ∧ (127 : Int) ≤ Config.maxRounds 8) ∧
    ((-129 : Int) < -(2 ^ (8 - 1) : Int) ∨ Config.maxRounds 8 < (-129 : Int)) ∧
    ((128 : Int) < -(2 ^ (8 - 1) : Int) ∨ Config.maxRounds 8 < (128 : Int)) := by decide

theorem witness_WaitTakesOneNopARound :
    2 ≤ 8 ∧ idleRegs.runR = false ∧ (-(2 ^ (8 - 1) : Int) ≤ 127 ∧ (127 : Int) ≤ Config.maxRounds 8) ∧
    (-(2 ^ (8 - 1) : Int) ≤ -128 ∧ (-128 : Int) ≤ Config.maxRounds 8) := by decide

/-- A machine whose `WAIT` is two NOPs, and one whose `WAIT` is refused. -/
theorem witness_WaitMeetsTheStepsDone :
    (∃ t, (machine decryptTwoLeft []).loadScript [.wait] = .ok t ∧ t.script.length = 2) ∧
    (∃ x, (State.resetAt 2).loadScript [.wait] = .error x) := ⟨⟨_, rfl, rfl⟩, ⟨_, rfl⟩⟩

end Sys2Proof.Tests
end

/-! # What writes `res_r`, `done_r` and `err_r` (10_state.md R23 to R25) -/

namespace Sys2Proof.Proofs

open Sys2Proof Sys2Proof.Machine Sys2Proof.Laws

/-! ## The running edge, final round or not (R77, R78) -/

@[simp] theorem round_sR {W : Nat} (r : Registers W) (e : Nat) : (r.round e).sR = r.roundOut := by
  by_cases hc : r.cntR = 1
  · rw [round_final r e hc, finalRound_sR]
  · rw [round_inner r e hc, innerRound_sR]

theorem round_resR {W : Nat} (r : Registers W) (e : Nat) :
    (r.round e).resR = if r.cntR = 1 then r.roundOut else r.resR := by
  by_cases hc : r.cntR = 1
  · rw [round_final r e hc, finalRound_resR, if_pos hc]
  · rw [round_inner r e hc, innerRound_resR, if_neg hc]

theorem round_doneR {W : Nat} (r : Registers W) (e : Nat) :
    (r.round e).doneR = (decide (r.cntR = 1) || r.doneR) := by
  by_cases hc : r.cntR = 1
  · rw [round_final r e hc, finalRound_doneR, decide_eq_true hc, Bool.true_or]
  · rw [round_inner r e hc, innerRound_doneR, decide_eq_false hc, Bool.false_or]

@[simp] theorem round_errR {W : Nat} (r : Registers W) (e : Nat) : (r.round e).errR = r.errR := by
  by_cases hc : r.cntR = 1
  · rw [round_final r e hc, finalRound_errR]
  · rw [round_inner r e hc, innerRound_errR]

/-! ## One edge: a case for each arm of R75 -/

/-- R23: a completion writes the result, the final round its new state and a zero count its block. -/
theorem datapathStep_resR {W : Nat} (e : Nat) (p : Ports W) (r : Registers W) :
    (datapathStep e p r).resR =
      (if p.rst then 0
       else if r.runR then (if r.cntR = 1 then (datapathStep e p r).sR else r.resR)
       else if p.start ∧ sint p.roundsIn = 0 then p.blockIn
       else r.resR) := by
  obtain ⟨hrst, heq⟩ | ⟨hrst, hrun, heq⟩ | ⟨hrst, hrun, hstart, hneg, heq⟩ | ⟨hrst, hrun, hstart, hzero, heq⟩ |
    ⟨hrst, hrun, hstart, hpos, heq⟩ | ⟨hrst, hrun, hstart, heq⟩ := datapathStep_cases e p r <;> rw [heq]
  · simp [hrst]
  · simp [hrst, hrun, round_resR]
  · simp [hrst, hrun, hneg.ne]
  · simp [hrst, hrun, hstart, hzero]
  · simp [hrst, hrun, hpos.ne']
  · simp [hrst, hrun, hstart]

/-- R24: a completion sets `done_r`, a positive-count accept and a reset clear it. -/
theorem datapathStep_doneR {W : Nat} (e : Nat) (p : Ports W) (r : Registers W) :
    (datapathStep e p r).doneR =
      (if p.rst then false
       else if r.runR then (decide (r.cntR = 1) || r.doneR)
       else if p.start then decide (sint p.roundsIn ≤ 0)
       else r.doneR) := by
  obtain ⟨hrst, heq⟩ | ⟨hrst, hrun, heq⟩ | ⟨hrst, hrun, hstart, hneg, heq⟩ | ⟨hrst, hrun, hstart, hzero, heq⟩ |
    ⟨hrst, hrun, hstart, hpos, heq⟩ | ⟨hrst, hrun, hstart, heq⟩ := datapathStep_cases e p r <;> rw [heq]
  · simp [hrst]
  · simp [hrst, hrun, round_doneR]
  · simp [hrst, hrun, hstart, hneg.le]
  · simp [hrst, hrun, hstart, hzero]
  · simp [hrst, hrun, hstart, hpos]
  · simp [hrst, hrun, hstart]

/-- R25, R94: the error completion sets `err_r`, every other accept and a reset clear it. -/
theorem datapathStep_errR {W : Nat} (e : Nat) (p : Ports W) (r : Registers W) :
    (datapathStep e p r).errR =
      (if p.rst then false
       else if r.runR then r.errR
       else if p.start then decide (sint p.roundsIn < 0)
       else r.errR) := by
  obtain ⟨hrst, heq⟩ | ⟨hrst, hrun, heq⟩ | ⟨hrst, hrun, hstart, hneg, heq⟩ | ⟨hrst, hrun, hstart, hzero, heq⟩ |
    ⟨hrst, hrun, hstart, hpos, heq⟩ | ⟨hrst, hrun, hstart, heq⟩ := datapathStep_cases e p r <;> rw [heq]
  · simp [hrst]
  · simp [hrst, hrun]
  · simp [hrst, hrun, hstart, hneg]
  · simp [hrst, hrun, hstart, hzero]
  · simp [hrst, hrun, hstart, hpos.le]
  · simp [hrst, hrun, hstart]

/-! ## The obligations -/

/-- Settles O37: the step is R75's edge on the registers, and that edge writes `res_r` as R23 says. -/
theorem resultIsWrittenOnlyByACompletion : Obligations.ResultIsWrittenOnlyByACompletion := by
  intro s t h
  obtain rfl := (step_next_iff s t).mp h
  exact ⟨datapathStep_resR _ _ _, outputs_resultOut _⟩

/-- Settles O38: the step is R75's edge on the registers, and that edge writes `done_r` as R24 says. -/
theorem doneIsSetByCompletionsOnly : Obligations.DoneIsSetByCompletionsOnly := by
  intro s t h
  obtain rfl := (step_next_iff s t).mp h
  exact ⟨datapathStep_doneR _ _ _, outputs_done _⟩

/-- Settles O39: the step is R75's edge on the registers, and that edge writes `err_r` as R25 and R94 say. -/
theorem errorIsClearedByTheNextAcceptOrReset : Obligations.ErrorIsClearedByTheNextAcceptOrReset := by
  intro s t h
  obtain rfl := (step_next_iff s t).mp h
  exact ⟨datapathStep_errR _ _ _, outputs_error _⟩

end Sys2Proof.Proofs

/-! # The fields of `CTRL` and the rows of its decode tables (30_encoding.md R48 to R50) -/

namespace Sys2Proof.Proofs

open Sys2Proof

/-! ## The places of the fields (R48) -/

theorem getLsbD_ctrl {W : Nat} (p : Ports W) (j : Nat) :
    p.ctrl.getLsbD j =
      if j = W + 2 then p.rst else if j = W + 1 then p.start else if j = W then p.op else p.roundsIn.getLsbD j := by
  simp only [Ports.ctrl, BitVec.getLsbD_cons]

theorem getLsbD_ctrl_rst {W : Nat} (p : Ports W) : p.ctrl.getLsbD (W + 2) = p.rst := by
  rw [getLsbD_ctrl, if_pos rfl]

theorem getLsbD_ctrl_start {W : Nat} (p : Ports W) : p.ctrl.getLsbD (W + 1) = p.start := by
  rw [getLsbD_ctrl, if_neg (by omega), if_pos rfl]

theorem getLsbD_ctrl_op {W : Nat} (p : Ports W) : p.ctrl.getLsbD W = p.op := by
  rw [getLsbD_ctrl, if_neg (by omega), if_neg (by omega), if_pos rfl]

theorem getLsbD_ctrl_roundsIn {W : Nat} (p : Ports W) {j : Nat} (h : j < W) :
    p.ctrl.getLsbD j = p.roundsIn.getLsbD j := by
  rw [getLsbD_ctrl, if_neg (by omega), if_neg (by omega), if_neg (by omega)]

@[simp] theorem setWidth_ctrl {W : Nat} (p : Ports W) : p.ctrl.setWidth W = p.roundsIn :=
  BitVec.eq_of_getLsbD_eq fun j h => by
    rw [BitVec.getLsbD_setWidth, getLsbD_ctrl_roundsIn p h, decide_eq_true h, Bool.true_and]

@[simp] theorem ofCtrl_ctrl {W : Nat} (p : Ports W) : Ports.ofCtrl p.ctrl p.blockIn p.keyIn = p := by
  rw [Ports.ofCtrl, getLsbD_ctrl_rst, getLsbD_ctrl_start, getLsbD_ctrl_op, setWidth_ctrl]

@[simp] theorem ctrl_ofCtrl {W : Nat} (c : BitVec (W + 3)) (b : Block) (k : Key) : (Ports.ofCtrl c b k).ctrl = c := by
  refine BitVec.eq_of_getLsbD_eq fun j h => ?_
  obtain hj | rfl | rfl | rfl : j < W ∨ j = W ∨ j = W + 1 ∨ j = W + 2 := by omega
  · rw [getLsbD_ctrl_roundsIn _ hj, Ports.ofCtrl, BitVec.getLsbD_setWidth, decide_eq_true hj, Bool.true_and]
  · exact getLsbD_ctrl_op _
  · exact getLsbD_ctrl_start _
  · exact getLsbD_ctrl_rst _

/-- Settles O15: each bit of `CTRL` is the bit of its field, so packing and unpacking undo each other. -/
theorem ctrlHoldsEachFieldInItsPlace : Obligations.CtrlHoldsEachFieldInItsPlace := fun _ =>
  ⟨fun p => ⟨getLsbD_ctrl_rst p, getLsbD_ctrl_start p, getLsbD_ctrl_op p, fun _ => getLsbD_ctrl_roundsIn p, ofCtrl_ctrl p⟩,
    ctrl_ofCtrl⟩

/-! ## Masks and matches (R49, R50)
Every mask and match has 0 below the sign bit of `rounds_in`: it is a word of the four bits that decide a row. -/

/-- The `CTRL` word for `ROUNDS_W = V + 1` with the bits `rst`, `start`, `op` and the sign of `rounds_in`, 0 below them. -/
def ruleBits (V : Nat) (rst start op sign : Bool) : BitVec (V + 1 + 3) :=
  BitVec.cons rst (BitVec.cons start (BitVec.cons op (BitVec.cons sign 0#V)))

theorem ofNat_eq_ruleBits (V : Nat) (rst start op sign : Bool) :
    BitVec.ofNat (V + 1 + 3) (rst.toNat * 2 ^ (V + 3) + start.toNat * 2 ^ (V + 2) + op.toNat * 2 ^ (V + 1) + sign.toNat * 2 ^ V) =
      ruleBits V rst start op sign := by
  refine (BitVec.eq_of_toNat_eq ?_).symm
  have hword : (ruleBits V rst start op sign).toNat =
      rst.toNat * 2 ^ (V + 3) + start.toNat * 2 ^ (V + 2) + op.toNat * 2 ^ (V + 1) + sign.toNat * 2 ^ V := by
    simp only [ruleBits, BitVec.toNat_cons', Nat.shiftLeft_eq, BitVec.toNat_zero, Nat.add_assoc, Nat.add_zero]
  rw [BitVec.toNat_ofNat, ← hword, Nat.mod_eq_of_lt (ruleBits V rst start op sign).isLt]

theorem bitVec_cons_inj {w : Nat} {a b : Bool} {x y : BitVec w} : BitVec.cons a x = BitVec.cons b y ↔ a = b ∧ x = y := by
  constructor
  · intro h
    have hmsb := congrArg BitVec.msb h
    have hlow := congrArg (BitVec.setWidth w) h
    simpa using And.intro hmsb hlow
  · rintro ⟨rfl, rfl⟩
    rfl

/-- A mask and match of this shape fit `CTRL` when each of the four bits does. -/
theorem ctrl_and_ruleBits_iff {V : Nat} (p : Ports (V + 1)) (rst start op sign rst' start' op' sign' : Bool) :
    p.ctrl &&& ruleBits V rst start op sign = ruleBits V rst' start' op' sign' ↔
      (p.rst && rst) = rst' ∧ (p.start && start) = start' ∧ (p.op && op) = op' ∧ (p.roundsIn.msb && sign) = sign' := by
  have hctrl : p.ctrl = BitVec.cons p.rst (BitVec.cons p.start (BitVec.cons p.op
      (BitVec.cons p.roundsIn.msb (p.roundsIn.setWidth V)))) := by
    rw [BitVec.cons_msb_setWidth, Ports.ctrl]
  rw [hctrl]
  simp only [ruleBits, BitVec.cons_and_cons, BitVec.and_zero, bitVec_cons_inj, and_true]

theorem mask_eq_ruleBits (V : Nat) (row : CtrlRow) : row.mask (V + 1) =
    match row with
    | .reset => ruleBits V true false false false
    | .nop => ruleBits V true true false false
    | .encrypt => ruleBits V true true true true
    | .decrypt => ruleBits V true true true true
    | .illegalRounds => ruleBits V true true false true
    | .roundStep => ruleBits V true false false false := by
  cases row <;> simp [CtrlRow.mask, ← ofNat_eq_ruleBits]

theorem pattern_eq_ruleBits (V : Nat) (row : CtrlRow) : row.pattern (V + 1) =
    match row with
    | .reset => ruleBits V true false false false
    | .nop => ruleBits V false false false false
    | .encrypt => ruleBits V false true false false
    | .decrypt => ruleBits V false true true false
    | .illegalRounds => ruleBits V false true false true
    | .roundStep => ruleBits V false false false false := by
  cases row <;> simp [CtrlRow.pattern, ← ofNat_eq_ruleBits]

/-- The condition column of R49 and R50. -/
def rowCondition {W : Nat} (p : Ports W) : CtrlRow → Prop
  | .reset => p.rst = true
  | .nop => p.rst = false ∧ p.start = false
  | .encrypt => p.rst = false ∧ p.start = true ∧ p.op = false ∧ p.roundsIn.msb = false
  | .decrypt => p.rst = false ∧ p.start = true ∧ p.op = true ∧ p.roundsIn.msb = false
  | .illegalRounds => p.rst = false ∧ p.start = true ∧ p.roundsIn.msb = true
  | .roundStep => p.rst = false

/-- The mask and match columns of a row say its condition column. -/
theorem ctrl_and_mask_eq_pattern_iff {V : Nat} (p : Ports (V + 1)) (row : CtrlRow) :
    p.ctrl &&& row.mask (V + 1) = row.pattern (V + 1) ↔ rowCondition p row := by
  rw [mask_eq_ruleBits, pattern_eq_ruleBits]
  cases row <;> simp [ctrl_and_ruleBits_iff, rowCondition]

theorem row_running {W : Nat} (p : Ports W) : p.row true = if p.rst then .reset else .roundStep := rfl

theorem row_idle {W : Nat} (p : Ports W) :
    p.row false =
      if p.rst then .reset
      else if p.start then if p.roundsIn.msb then .illegalRounds else if p.op then .decrypt else .encrypt
      else .nop := rfl

theorem listedWhen_row {W : Nat} (p : Ports W) (run : Bool) : (p.row run).listedWhen run = true := by
  cases run with
  | true => rw [row_running]; split_ifs <;> rfl
  | false => rw [row_idle]; split_ifs <;> rfl

/-- The conditions of the rows listed for one value of `run_r` exclude each other and leave no port value out. -/
theorem rowCondition_iff_eq_row {W : Nat} (p : Ports W) {run : Bool} {row : CtrlRow} (h : row.listedWhen run = true) :
    rowCondition p row ↔ row = p.row run := by
  cases hrst : p.rst with
  | true => cases row <;> simp [rowCondition, Ports.row, hrst]
  | false =>
    cases run with
    | true => cases row <;> simp_all [rowCondition, row_running, CtrlRow.listedWhen]
    | false =>
      have hrun : row ≠ .roundStep := by rintro rfl; cases h
      cases hstart : p.start with
      | false => cases row <;> simp_all [rowCondition, row_idle]
      | true =>
        cases hsign : p.roundsIn.msb with
        | true => cases row <;> simp_all [rowCondition, row_idle]
        | false => cases hop : p.op <;> cases row <;> simp_all [rowCondition, row_idle]

theorem decode_row {W : Nat} (run : Bool) (p : Ports W) : (decode run p).row = some (p.row run) := by
  unfold decode
  cases p.row run <;> rfl

/-- Settles O16: a row's mask and match say its condition, and of the conditions listed for `run_r` exactly the selected row's
holds. -/
theorem everyCtrlValueFitsExactlyOneRow : Obligations.EveryCtrlValueFitsExactlyOneRow := by
  refine ⟨fun W hW run p => ⟨listedWhen_row p run, fun row hrow => ?_⟩,
    by decide, by decide, by decide, by decide, by decide, by decide, fun _ => decode_row⟩
  obtain ⟨V, rfl⟩ : ∃ V, W = V + 1 := ⟨W - 1, by omega⟩
  exact (ctrl_and_mask_eq_pattern_iff p row).trans (rowCondition_iff_eq_row p hrow)

end Sys2Proof.Proofs

/-! # F, the word transform (40_word_transform_f.md R57) -/

namespace Sys2Proof.Proofs

open Sys2Proof Sys2Proof.Machine

theorem toNat_and_0xFF (x : Word) : (x &&& 0xFF).toNat = x.toNat % 256 :=
  Nat.and_two_pow_sub_one_eq_mod x.toNat 8

/-- Joining words puts the left one above the right one, with no carry between them. -/
theorem toNat_append_eq_add {m n : Nat} (x : BitVec m) (y : BitVec n) : (x ++ y).toNat = x.toNat * 2 ^ n + y.toNat := by
  rw [BitVec.toNat_append, ← Nat.shiftLeft_add_eq_or_of_lt y.isLt, Nat.shiftLeft_eq]

/-- F on numbers, by the steps of its pseudocode: `high`, `part1`, `part2`, and the two parts joined. -/
theorem toNat_wordTransformF (w : Word) :
    (wordTransformF w).toNat = (255 - w.toNat / 256) * 256 + w.toNat % 256 / 8 := by
  have hw := w.isLt
  have hhigh : ((w >>> 8) &&& 0xFF).toNat = w.toNat / 256 := by
    rw [toNat_and_0xFF, BitVec.toNat_ushiftRight, Nat.shiftRight_eq_div_pow]
    omega
  have hpart1 : (((w &&& 0xFF) >>> 3) &&& 0xFF).toNat = w.toNat % 256 / 8 := by
    rw [toNat_and_0xFF, BitVec.toNat_ushiftRight, toNat_and_0xFF, Nat.shiftRight_eq_div_pow]
    omega
  have hpart2 : (~~~((w >>> 8) &&& 0xFF) &&& 0xFF).toNat = 255 - w.toNat / 256 := by
    rw [toNat_and_0xFF, BitVec.toNat_not, hhigh]
    omega
  have hfit : (255 - w.toNat / 256) <<< 8 < 2 ^ 16 := by
    rw [Nat.shiftLeft_eq]
    omega
  rw [wordTransformF, BitVec.toNat_or, BitVec.toNat_shiftLeft, hpart1, hpart2, Nat.mod_eq_of_lt hfit,
    ← Nat.shiftLeft_add_eq_or_of_lt (by omega), Nat.shiftLeft_eq]

/-- Both sides are the same number: the three zero bits are the gap between `w[7:3] < 32` and the inverted high byte. -/
theorem wordTransformF_eq_append (w : Word) :
    wordTransformF w = (~~~w.extractLsb' 8 8) ++ (0 : BitVec 3) ++ w.extractLsb' 3 5 := by
  have hw := w.isLt
  have hsum : ((~~~w.extractLsb' 8 8) ++ (0 : BitVec 3) ++ w.extractLsb' 3 5).toNat =
      ((255 - w.toNat / 256) * 8 + 0) * 32 + w.toNat / 8 % 32 := by
    rw [toNat_append_eq_add, toNat_append_eq_add, BitVec.toNat_not, BitVec.extractLsb'_toNat, BitVec.extractLsb'_toNat,
      Nat.shiftRight_eq_div_pow, Nat.shiftRight_eq_div_pow, Nat.mod_eq_of_lt (by omega : w.toNat / 2 ^ 8 < 2 ^ 8)]
    rfl
  refine BitVec.eq_of_toNat_eq ?_
  rw [toNat_wordTransformF, hsum]
  omega

theorem wordTransformF_eq_zero_iff (w : Word) : wordTransformF w = 0 ↔ 0xFF00 ≤ w.toNat ∧ w.toNat ≤ 0xFF07 := by
  have hw := w.isLt
  rw [← BitVec.toNat_inj, toNat_wordTransformF, BitVec.ofNat_eq_ofNat, BitVec.toNat_zero]
  omega

/-- F reads `w` through `w / 256` and `w % 256 / 8` only, and both are of `w / 8`. -/
theorem wordTransformF_congr {v w : Word} (h : v >>> 3 = w >>> 3) : wordTransformF v = wordTransformF w := by
  have hdiv : v.toNat / 8 = w.toNat / 8 := by
    simpa [Nat.shiftRight_eq_div_pow] using congrArg BitVec.toNat h
  refine BitVec.eq_of_toNat_eq ?_
  rw [toNat_wordTransformF, toNat_wordTransformF]
  omega

/-- Settles O1: F's number gives its bits, its zeros and the bits it ignores; the corner cases and the example are evaluated. -/
theorem wordTransformFollowsItsPseudocode : Obligations.WordTransformFollowsItsPseudocode :=
  ⟨fun w => ⟨toNat_wordTransformF w, wordTransformF_eq_append w, wordTransformF_eq_zero_iff w⟩,
    fun _ _ => wordTransformF_congr, by decide, by decide, by decide, by decide⟩

end Sys2Proof.Proofs

/-! # The key schedule (41_key_schedule.md R60 to R63) -/

namespace Sys2Proof.Proofs

open Sys2Proof Sys2Proof.Machine

/-- R60 on numbers: the shift left multiplies, the shift right divides, the mask takes the remainder. -/
theorem toNat_roundKey (K : Key) (i : Nat) :
    (roundKey K i).toNat = ((2 ^ 64 - 1 - K.toNat) * 2 ^ (2 * i) / 2 ^ 16) % 2 ^ 16 := by
  have hmask (n : Nat) : n &&& 0xFFFF = n % 2 ^ 16 := Nat.and_two_pow_sub_one_eq_mod n 16
  rw [roundKey, BitVec.toNat_ofNat, hmask, Nat.mod_mod, Nat.shiftRight_eq_div_pow, Nat.shiftLeft_eq, BitVec.toNat_not]

/-- R61, the closed form: bit `j` of the subkey is the inverted key bit that the two shifts move there, or a 0 shifted in. -/
theorem getLsbD_roundKey (K : Key) (i : Nat) {j : Nat} (hj : j < 16) :
    (roundKey K i).getLsbD j = if 2 * i ≤ j + 16 then !K.getLsbD (j + 16 - 2 * i) else false := by
  have hmask : Nat.testBit 0xFFFF j = true := by
    rw [show 0xFFFF = 2 ^ 16 - 1 from rfl, Nat.testBit_two_pow_sub_one, decide_eq_true hj]
  have hpos : j + 16 - 2 * i < 64 := by omega
  rw [roundKey, BitVec.getLsbD_ofNat, Nat.testBit_and, hmask, Nat.testBit_shiftRight, Nat.testBit_shiftLeft,
    BitVec.testBit_toNat, Nat.add_comm 16 j, BitVec.getLsbD_not]
  by_cases hle : 2 * i ≤ j + 16 <;> simp [hj, hle, hpos]

/-- R63: the subkey reads no key bit above bit 31. -/
theorem roundKey_congr {K L : Key} (h : ∀ b : Nat, b < 32 → K.getLsbD b = L.getLsbD b) (i : Nat) :
    roundKey K i = roundKey L i :=
  BitVec.eq_of_getLsbD_eq fun j hj => by
    rw [getLsbD_roundKey K i hj, getLsbD_roundKey L i hj, h (j + 16 - 2 * i) (by omega)]

/-! ## The corner cases of R60 -/

/-- From round 16 on every key bit is shifted past the window. -/
theorem roundKey_eq_zero_of_le {i : Nat} (h : 16 ≤ i) (K : Key) : roundKey K i = 0 :=
  BitVec.eq_of_getLsbD_eq fun j hj => by
    rw [getLsbD_roundKey K i hj, if_neg (by omega), BitVec.ofNat_eq_ofNat, BitVec.getLsbD_zero]

theorem roundKey_allOnes (i : Nat) : roundKey (BitVec.allOnes 64) i = 0 := by
  refine BitVec.eq_of_toNat_eq ?_
  rw [toNat_roundKey, BitVec.toNat_allOnes, Nat.sub_self, Nat.zero_mul]
  rfl

/-- Up to round 8 no 0 shifted in has reached the window. -/
theorem roundKey_zero_of_le {i : Nat} (h : i ≤ 8) : roundKey 0 i = BitVec.allOnes 16 :=
  BitVec.eq_of_getLsbD_eq fun j hj => by
    rw [getLsbD_roundKey 0 i hj, if_pos (by omega), BitVec.ofNat_eq_ofNat, BitVec.getLsbD_zero, BitVec.getLsbD_allOnes,
      decide_eq_true hj, Bool.not_false]

theorem roundKey_and_low32 (K : Key) (i : Nat) : roundKey (K &&& 0xFFFFFFFF) i = roundKey K i := by
  have hmask : (0xFFFFFFFF : Key) = (BitVec.allOnes 32).setWidth 64 := rfl
  refine roundKey_congr (fun b hb => ?_) i
  rw [hmask, BitVec.getLsbD_and, BitVec.getLsbD_setWidth, BitVec.getLsbD_allOnes, decide_eq_true hb,
    decide_eq_true (by omega), Bool.and_self, Bool.and_true]

/-! ## The obligations -/

/-- Settles O3: the number is the pseudocode's shifts as arithmetic, the corner cases follow from the subkey's bits, and the
example is evaluated. -/
theorem roundKeyFollowsItsPseudocode : Obligations.RoundKeyFollowsItsPseudocode := fun K i =>
  ⟨toNat_roundKey K i, fun h => roundKey_eq_zero_of_le h K, roundKey_allOnes i, roundKey_zero_of_le,
    (roundKey_and_low32 K i).symm, by decide⟩

/-- Settles O4: the selector is the closed form at `key_r` and `idx_r`, and it reads bits below 32 only. -/
theorem subkeySelectsInvertedKeyBits : Obligations.SubkeySelectsInvertedKeyBits := fun _ r =>
  ⟨fun _ hj => getLsbD_roundKey r.keyR r.idxR.toNat hj, fun q hidx hkey => by
    rw [Registers.subkey, Registers.subkey, hidx, roundKey_congr hkey]⟩

end Sys2Proof.Proofs

/-! # The round function (42_round_function.md R65 to R68) -/

namespace Sys2Proof.Proofs

open Sys2Proof Sys2Proof.Machine

theorem roundFunction_eq (X : Words) (k : Word) :
    roundFunction X k = ⟨X.x0 ^^^ X.x1 ^^^ (X.x3 ^^^ k), wordTransformF X.x2, X.x0, X.x2⟩ := rfl

/-- R65: XOR is its own inverse, so one subkey and no other cancels `y0`. -/
theorem roundFunction_x0_eq_zero_iff (X : Words) (k : Word) :
    (roundFunction X k).x0 = 0 ↔ k = X.x0 ^^^ X.x1 ^^^ X.x3 := by
  rw [roundFunction_eq, ← BitVec.xor_assoc, BitVec.ofNat_eq_ofNat, BitVec.xor_eq_zero_iff, eq_comm]

/-- R68, the hardware form: `y[63:48]` is a three-level XOR, which brackets its operands otherwise than R65. -/
theorem join_roundFunction_split (x : Block) (k : Word) :
    join (roundFunction (split x) k) =
      (x.extractLsb' 48 16 ^^^ x.extractLsb' 32 16 ^^^ x.extractLsb' 0 16 ^^^ k) ++ wordTransformF (x.extractLsb' 16 16) ++
        x.extractLsb' 48 16 ++ x.extractLsb' 16 16 := by
  rw [roundFunction_eq, ← BitVec.xor_assoc, join, split]

/-- Settles O6: the words are R65's assignment, the 64-bit form and the cancelling subkey follow from it by associativity of XOR,
and the corner case and the example are evaluated. -/
theorem roundComputesItsFourWords : Obligations.RoundComputesItsFourWords :=
  ⟨fun x0 x1 x2 x3 k => ⟨roundFunction_eq ⟨x0, x1, x2, x3⟩ k, (roundFunction_x0_eq_zero_iff ⟨x0, x1, x2, x3⟩ k).mpr⟩,
    join_roundFunction_split, by decide, by decide⟩

end Sys2Proof.Proofs

/-! # split, join, encrypt and decrypt (43_block_cipher_datapath.md R69 to R74) -/

namespace Sys2Proof.Proofs

open Sys2Proof Sys2Proof.Machine

/-! ## The words of a block (R69, R70) -/

/-- A slice of a word is the shift right and the mask of R69. -/
theorem toNat_extractLsb'_eq_div_mod {w : Nat} (x : BitVec w) (start len : Nat) :
    (x.extractLsb' start len).toNat = x.toNat / 2 ^ start % 2 ^ len := by
  rw [BitVec.extractLsb'_toNat, Nat.shiftRight_eq_div_pow]

theorem toNat_split_x0 (b : Block) : (split b).x0.toNat = b.toNat / 2 ^ 48 % 2 ^ 16 := toNat_extractLsb'_eq_div_mod b 48 16
theorem toNat_split_x1 (b : Block) : (split b).x1.toNat = b.toNat / 2 ^ 32 % 2 ^ 16 := toNat_extractLsb'_eq_div_mod b 32 16
theorem toNat_split_x2 (b : Block) : (split b).x2.toNat = b.toNat / 2 ^ 16 % 2 ^ 16 := toNat_extractLsb'_eq_div_mod b 16 16
theorem toNat_split_x3 (b : Block) : (split b).x3.toNat = b.toNat % 2 ^ 16 := by
  rw [split, toNat_extractLsb'_eq_div_mod, Nat.pow_zero, Nat.div_one]

/-- Each of the three joints of `join` puts the words on its left 16 bits higher. -/
theorem toNat_join (Y : Words) :
    (join Y).toNat = Y.x0.toNat * 2 ^ 48 + Y.x1.toNat * 2 ^ 32 + Y.x2.toNat * 2 ^ 16 + Y.x3.toNat := by
  have hjoints : (join Y).toNat = ((Y.x0.toNat * 2 ^ 16 + Y.x1.toNat) * 2 ^ 16 + Y.x2.toNat) * 2 ^ 16 + Y.x3.toNat := by
    rw [← toNat_append_eq_add, ← toNat_append_eq_add, ← toNat_append_eq_add, join]
  rw [hjoints]
  ring

/-- R70: the words of a block are the digits of its number in base `2^16`, and no digit is lost. -/
@[simp] theorem join_split (b : Block) : join (split b) = b := by
  have hb := b.isLt
  refine BitVec.eq_of_toNat_eq ?_
  rw [toNat_join, toNat_split_x0, toNat_split_x1, toNat_split_x2, toNat_split_x3]
  omega

theorem words_eq_of_toNat_eq {X Y : Words} (h0 : X.x0.toNat = Y.x0.toNat) (h1 : X.x1.toNat = Y.x1.toNat)
    (h2 : X.x2.toNat = Y.x2.toNat) (h3 : X.x3.toNat = Y.x3.toNat) : X = Y := by
  cases X
  cases Y
  rw [Words.mk.injEq]
  exact ⟨BitVec.eq_of_toNat_eq h0, BitVec.eq_of_toNat_eq h1, BitVec.eq_of_toNat_eq h2, BitVec.eq_of_toNat_eq h3⟩

/-- R70: each word is less than `2^16`, so the sum of the weighted words determines all four. -/
@[simp] theorem split_join (Y : Words) : split (join Y) = Y := by
  have h0 := Y.x0.isLt
  have h1 := Y.x1.isLt
  have h2 := Y.x2.isLt
  have h3 := Y.x3.isLt
  apply words_eq_of_toNat_eq
  · rw [toNat_split_x0, toNat_join]
    omega
  · rw [toNat_split_x1, toNat_join]
    omega
  · rw [toNat_split_x2, toNat_join]
    omega
  · rw [toNat_split_x3, toNat_join]
    omega

/-- Settles O9: the four words as slices of the block, and the joined block as a sum of weighted words. -/
theorem splitAndJoinFollowTheirFormulas : Obligations.SplitAndJoinFollowTheirFormulas :=
  ⟨fun b => ⟨toNat_split_x0 b, toNat_split_x1 b, toNat_split_x2 b, toNat_split_x3 b⟩, toNat_join⟩

/-! ## The round loops (R71 to R74) -/

theorem runRounds_cons (K : Key) (i : Nat) (is : List Nat) (X : Words) :
    runRounds K (i :: is) X = runRounds K is (roundFunction X (roundKey K i)) := rfl

theorem runRounds_append_singleton (K : Key) (is : List Nat) (i : Nat) (X : Words) :
    runRounds K (is ++ [i]) X = roundFunction (runRounds K is X) (roundKey K i) :=
  List.foldl_concat _ _ _ _

/-- The ascending loop performs the highest index last. -/
theorem encryptRounds_succ (b : Block) (K : Key) (n : Nat) :
    encryptRounds b K (n + 1) = roundBlock (encryptRounds b K n) (roundKey K n) := by
  rw [encryptRounds, List.range_succ, runRounds_append_singleton, roundBlock, encryptRounds, split_join]

/-- The descending loop performs the highest index first. -/
theorem decryptRounds_succ (b : Block) (K : Key) (n : Nat) :
    decryptRounds b K (n + 1) = decryptRounds (roundBlock b (roundKey K n)) K n := by
  rw [decryptRounds, List.range_succ, List.reverse_concat, runRounds_cons, decryptRounds, roundBlock, split_join]

@[simp] theorem encryptRounds_zero (b : Block) (K : Key) : encryptRounds b K 0 = b := join_split b

@[simp] theorem decryptRounds_zero (b : Block) (K : Key) : decryptRounds b K 0 = b := join_split b

@[simp] theorem encrypt_natCast (b : Block) (K : Key) (n : Nat) : encrypt b K n = some (encryptRounds b K n) :=
  if_neg (Int.natCast_nonneg n).not_gt

@[simp] theorem decrypt_natCast (b : Block) (K : Key) (n : Nat) : decrypt b K n = some (decryptRounds b K n) :=
  if_neg (Int.natCast_nonneg n).not_gt

theorem encrypt_of_neg (b : Block) (K : Key) {n : Int} (h : n < 0) : encrypt b K n = none := if_pos h

theorem decrypt_of_neg (b : Block) (K : Key) {n : Int} (h : n < 0) : decrypt b K n = none := if_pos h

/-- Settles O11: the list of indices of `n + 1` rounds is that of `n` with `n` put last, or first in the descending loop. -/
theorem encryptAndDecryptAreTheRoundLoops : Obligations.EncryptAndDecryptAreTheRoundLoops := fun b K n =>
  ⟨encryptRounds_succ b K n, decryptRounds_succ b K n, encryptRounds_zero b K, decryptRounds_zero b K,
    (encrypt_natCast b K 0).trans (congrArg some (encryptRounds_zero b K)),
    (decrypt_natCast b K 0).trans (congrArg some (decryptRounds_zero b K)),
    encrypt_natCast b K n, decrypt_natCast b K n, fun _ hm => ⟨encrypt_of_neg b K hm, decrypt_of_neg b K hm⟩⟩

end Sys2Proof.Proofs

/-! # The commands at their accepting edge and the running edge (43_block_cipher_datapath.md R75 to R83) -/

namespace Sys2Proof.Proofs

open Sys2Proof Sys2Proof.Machine Sys2Proof.Laws

/-! ## One edge: the arms of R75 -/

section Arms

variable {W : Nat} (e : Nat) {p : Ports W} {r : Registers W}

theorem datapathStep_of_rst (hrst : p.rst = true) : datapathStep e p r = Registers.reset W := if_pos hrst

theorem datapathStep_of_running (hrst : p.rst = false) (hrun : r.runR = true) : datapathStep e p r = r.round e := by
  simp [datapathStep, hrst, hrun]

theorem datapathStep_of_start_neg (hrst : p.rst = false) (hrun : r.runR = false) (hstart : p.start = true)
    (hneg : sint p.roundsIn < 0) : datapathStep e p r = r.inputError := by
  simp [datapathStep, hrst, hrun, hstart, hneg]

theorem datapathStep_of_start_zero (hrst : p.rst = false) (hrun : r.runR = false) (hstart : p.start = true)
    (hzero : sint p.roundsIn = 0) : datapathStep e p r = r.acceptZero p.op p.blockIn p.keyIn := by
  simp [datapathStep, hrst, hrun, hstart, hzero]

theorem datapathStep_of_start_pos (hrst : p.rst = false) (hrun : r.runR = false) (hstart : p.start = true)
    (hpos : 0 < sint p.roundsIn) : datapathStep e p r = r.acceptRounds p.op p.countField p.blockIn p.keyIn := by
  cases hop : p.op <;> simp [datapathStep, hrst, hrun, hstart, hpos.not_gt, hpos.ne', hop]

theorem datapathStep_of_no_start (hrst : p.rst = false) (hrun : r.runR = false) (hstart : p.start = false) :
    datapathStep e p r = r := by
  simp [datapathStep, hrst, hrun, hstart]

end Arms

/-- R75 as a step of the machine: the registers are the datapath's, and only the host's side changes beside them. -/
theorem step_becomes_datapathStep (s : State) :
    ∃ t, step s = .next t ∧ s.Becomes (datapathStep (s.edge + 1) (s.portsAt 0) s.regs) t :=
  ⟨_, step_eq s, _, _, rfl⟩

/-- Settles O31: the step is R75's edge on the registers, and each condition of the list selects its arm. -/
theorem stepFollowsThePriorityList : Obligations.StepFollowsThePriorityList := by
  rintro s p rfl
  obtain ⟨t, hstep, hbecomes⟩ := step_becomes_datapathStep s
  exact ⟨t, _, s.edge + 1, hstep, hbecomes, rfl, datapathStep_of_rst _, datapathStep_of_running _,
    datapathStep_of_start_neg _, datapathStep_of_start_zero _, datapathStep_of_start_pos _, datapathStep_of_no_start _⟩

/-! ## The commands of an idle machine -/

section Idle

variable {s : State} (hidle : s.regs.runR = false)
include hidle

theorem exec_nop_idle : exec .nop s = .next s :=
  congrArg Host.Outcome.next (commandEdge_idle s s.regs hidle)

theorem exec_illegalRounds_idle (op : Bool) (n : Int) :
    exec (.illegalRounds op n) s = .next (s.setRegs s.regs.inputError) :=
  congrArg Host.Outcome.next (commandEdge_idle s _ hidle)

theorem exec_encrypt_idle (n : Nat) (block : Block) (key : Key) :
    exec (.encrypt n block key) s = .next (s.setRegs (s.regs.accept false (BitVec.ofNat _ n) block key)) :=
  congrArg Host.Outcome.next (commandEdge_idle s _ hidle)

theorem exec_decrypt_idle (n : Nat) (block : Block) (key : Key) :
    exec (.decrypt n block key) s = .next (s.setRegs (s.regs.accept true (BitVec.ofNat _ n) block key)) :=
  congrArg Host.Outcome.next (commandEdge_idle s _ hidle)

end Idle

/-- A legal count fits `cnt_r` (R43). -/
theorem toNat_ofNat_of_le_maxRounds {W n : Nat} (h : n ≤ Config.maxRounds W) : (BitVec.ofNat (W - 1) n).toNat = n := by
  have hpow : 0 < 2 ^ (W - 1) := Nat.two_pow_pos _
  rw [Config.maxRounds] at h
  rw [BitVec.toNat_ofNat, Nat.mod_eq_of_lt (by omega)]

/-- A positive legal count is a positive value of `cnt_r`: it takes the accept of R81 and R82. -/
theorem ofNat_ne_zero_of_le_maxRounds {W n : Nat} (hpos : 1 ≤ n) (h : n ≤ Config.maxRounds W) :
    BitVec.ofNat (W - 1) n ≠ 0 := by
  intro hzero
  have hn := toNat_ofNat_of_le_maxRounds h
  rw [hzero, BitVec.ofNat_eq_ofNat, BitVec.toNat_zero] at hn
  omega

/-- Settles O22: an idle edge with `rst = 0` and `start = 0` takes the last arm of R75, as NOP does. -/
theorem nopKeepsEveryRegister : Obligations.NopKeepsEveryRegister := by
  intro s hidle
  refine ⟨exec_nop_idle hidle, fun hrst hstart => ?_⟩
  obtain ⟨t, hstep, hbecomes⟩ := step_becomes_datapathStep s
  rw [datapathStep_of_no_start _ hrst hidle hstart] at hbecomes
  exact ⟨t, hstep, hbecomes⟩

/-- Settles O23: the count fits `cnt_r` and is not 0, so the accept is R81's. -/
theorem encryptAcceptLoadsTheCommand : Obligations.EncryptAcceptLoadsTheCommand := by
  intro n block key s hidle hpos hmax
  refine ⟨BitVec.ofNat _ n, toNat_ofNat_of_le_maxRounds hmax, ?_⟩
  rw [exec_encrypt_idle hidle, accept_pos _ _ (ofNat_ne_zero_of_le_maxRounds hpos hmax)]
  rfl

/-- Settles O24: the count fits `cnt_r` and is not 0, so the accept is R82's and the first index is one less. -/
theorem decryptAcceptLoadsTheCommand : Obligations.DecryptAcceptLoadsTheCommand := by
  intro n block key s hidle hpos hmax
  have hcount := toNat_ofNat_of_le_maxRounds hmax
  have hne := ofNat_ne_zero_of_le_maxRounds hpos hmax
  have hindex := firstIndex_decrypt hne
  refine ⟨BitVec.ofNat _ n, firstIndex true (BitVec.ofNat _ n), hcount, by omega, ?_⟩
  rw [exec_decrypt_idle hidle, accept_pos _ _ hne]
  rfl

/-- Settles O25: the count 0 takes the accept of R80, whatever the operation. -/
theorem zeroRoundsCompleteAtOnce : Obligations.ZeroRoundsCompleteAtOnce := by
  intro block key s hidle
  constructor
  · rw [exec_encrypt_idle hidle, ← BitVec.ofNat_eq_ofNat, accept_zero]
    rfl
  · rw [exec_decrypt_idle hidle, ← BitVec.ofNat_eq_ofNat, accept_zero]
    rfl

/-- Settles O26: the error completion (R88) writes `done_r` and `err_r` only, and uses neither operand. -/
theorem illegalRoundsTakesTheErrorCompletion : Obligations.IllegalRoundsTakesTheErrorCompletion :=
  fun op n _ hidle _ => exec_illegalRounds_idle hidle op n

/-! ## ROUND_STEP of a running machine -/

theorem exec_roundStep_running {s : State} (hrun : s.regs.runR = true) :
    exec .roundStep s = .next (s.setRegs (s.regs.round s.edge)) := by
  rw [exec, execRoundStep, if_pos hrun]

/-- Settles O27: the inner round of R77, its count and index being `nextCount` and `nextIndex` of the edge. -/
theorem innerRoundStepsStateCountAndIndex : Obligations.InnerRoundStepsStateCountAndIndex := by
  intro s hrun hcnt
  refine ⟨nextCount s.edge s.regs.cntR, nextIndex s.edge s.regs.opR s.regs.idxR, ?_, nextCount_toNat _,
    fun hop hfits => ?_, fun hop hfits => ?_⟩
  · rw [exec_roundStep_running hrun, round_inner _ _ hcnt]
    rfl
  · rw [hop, nextIndex_up _ (by omega)]
  · rw [hop, nextIndex_down _ hfits]

/-- Settles O28: the final round of R78. -/
theorem finalRoundWritesTheResult : Obligations.FinalRoundWritesTheResult := by
  intro s hrun hcnt
  rw [exec_roundStep_running hrun, round_final _ _ hcnt]
  rfl

end Sys2Proof.Proofs

/-! # Reset and the inputs of a running edge (70_reset_and_hazards.md R101, R106) -/

namespace Sys2Proof.Proofs

open Sys2Proof Sys2Proof.Machine Sys2Proof.Laws

theorem reset_eq_zeros (W : Nat) : Registers.reset W = ⟨false, 0, 0, false, 0, 0, 0, false, false⟩ := rfl

/-- Settles O21: RESET and every edge with `rst = 1` leave the registers of R16's reset column. -/
theorem resetClearsEveryRegister : Obligations.ResetClearsEveryRegister := by
  refine ⟨reset_eq_zeros, reset_eq_zeros _, fun _ => rfl, fun s hrst => ?_⟩
  obtain ⟨t, hstep, script, edge, rfl⟩ := step_becomes_datapathStep s
  rw [datapathStep_of_rst _ hrst, reset_eq_zeros] at hstep
  exact ⟨_, hstep, rfl, rfl⟩

/-- A running edge with `rst = 0` is the round, in a form that names no input. -/
theorem step_running {s : State} (hrun : s.regs.runR = true) (hrst : (s.portsAt 0).rst = false) :
    step s = .next { s with regs := s.regs.round (s.edge + 1), script := s.script.tail, edge := s.edge + 1 } := by
  rw [step_eq, datapathStep_of_running _ hrst hrun]

/-- Settles O34: with either port values the step is the round of the same registers at the same edge. -/
theorem startWhileRunningIsDropped : Obligations.StartWhileRunningIsDropped := by
  intro s hrun hrst
  refine ⟨fun q hq => ?_, _, s.edge + 1, step_running hrun hrst, _, _, rfl⟩
  rw [step_running hrun hrst, step_running (s := { s with script := q :: s.script.tail }) hrun hq]
  rfl

end Sys2Proof.Proofs

/-! # A command from its accept to its completion (43_block_cipher_datapath.md R77, R78, R84, R86) -/

namespace Sys2Proof.Proofs

open Sys2Proof Sys2Proof.Machine Sys2Proof.Laws

/-! ## The rounds in the order the hardware performs them -/

/-- `c` rounds on the block `b`, the first of index `i`, each next index one up (encrypt) or one down (decrypt). -/
def remainingRounds (K : Key) (op : Bool) : Nat → Nat → Block → Block
  | 0, _, b => b
  | c + 1, i, b => remainingRounds K op c (if op then i - 1 else i + 1) (roundBlock b (roundKey K i))

theorem remainingRounds_succ (K : Key) (op : Bool) (c i : Nat) (b : Block) :
    remainingRounds K op (c + 1) i b =
      remainingRounds K op c (if op then i - 1 else i + 1) (roundBlock b (roundKey K i)) := rfl

theorem remainingRounds_one (K : Key) (op : Bool) (i : Nat) (b : Block) :
    remainingRounds K op 1 i b = roundBlock b (roundKey K i) := rfl

/-- R71: the rounds from index `i` on complete an encryption whose first `i` rounds are done. -/
theorem remainingRounds_encryptRounds (K : Key) (b : Block) (c i : Nat) :
    remainingRounds K false c i (encryptRounds b K i) = encryptRounds b K (i + c) := by
  induction c generalizing i with
  | zero => rfl
  | succ c ih =>
    rw [remainingRounds_succ, ← encryptRounds_succ, if_neg Bool.false_ne_true, ih, Nat.add_right_comm, Nat.add_assoc]

/-- R72: the indices step down from `n - 1` to 0. -/
theorem remainingRounds_decrypt (K : Key) (n : Nat) (b : Block) :
    remainingRounds K true n (n - 1) b = decryptRounds b K n := by
  induction n generalizing b with
  | zero => exact (decryptRounds_zero b K).symm
  | succ n ih => rw [remainingRounds_succ, Nat.add_sub_cancel, if_pos rfl, ih, decryptRounds_succ]

/-! ## A running command -/

theorem ne_zero_of_toNat_pos {w : Nat} {c : BitVec w} (h : 0 < c.toNat) : c ≠ 0 := by
  rintro rfl
  exact h.ne' BitVec.toNat_zero

/-- What the rounds still to perform make of `s_r`: the result the command will write. -/
def pendingResult {W : Nat} (r : Registers W) : Block :=
  remainingRounds r.keyR r.opR r.cntR.toNat r.idxR.toNat r.sR

/-- A command is running, has `c` rounds still to perform, and will write `result`. -/
structure InCommand {W : Nat} (r : Registers W) (c : Nat) (result : Block) : Prop where
  running : r.runR = true
  inv : r.Inv
  count : r.cntR.toNat = c
  pending : pendingResult r = result

/-- R81, R82: an accept with a count that is not 0 meets the invariants of R31, whatever the registers held. -/
theorem acceptRounds_inv {W : Nat} (r : Registers W) (op : Bool) {n : BitVec (W - 1)} (hn : n ≠ 0) (b : Block) (k : Key) :
    (r.acceptRounds op n b k).Inv := by
  have hpos : 1 ≤ n.toNat := toNat_sub_one hn ▸ Nat.le_add_left 1 _
  have hmax : n.toNat ≤ Config.maxRounds W := Nat.le_sub_one_of_lt n.isLt
  refine ⟨nofun, fun _ => ⟨hpos, hmax⟩, fun _ => ⟨rfl, rfl⟩, fun _ (hop : op = false) => ?_, fun _ (hop : op = true) => ?_,
    nofun⟩
  · rw [acceptRounds_idxR, acceptRounds_cntR, hop]
    simpa [firstIndex] using hmax
  · rw [acceptRounds_idxR, acceptRounds_cntR, hop]
    exact firstIndex_decrypt hn

/-- R81, R82: the accept puts the whole command ahead. -/
theorem pendingResult_acceptRounds {W : Nat} (r : Registers W) (op : Bool) {n : BitVec (W - 1)} (hn : n ≠ 0) (b : Block)
    (k : Key) : pendingResult (r.acceptRounds op n b k) = cipherRounds op b k n.toNat := by
  cases op with
  | false =>
    have h := remainingRounds_encryptRounds k b n.toNat 0
    rw [encryptRounds_zero, Nat.zero_add] at h
    simpa [pendingResult, firstIndex, cipherRounds] using h
  | true =>
    have hidx : (firstIndex true n).toNat = n.toNat - 1 := by have := firstIndex_decrypt hn; omega
    simpa [pendingResult, hidx, cipherRounds] using remainingRounds_decrypt k n.toNat b

theorem acceptRounds_inCommand {W : Nat} (r : Registers W) (op : Bool) {n : BitVec (W - 1)} (hn : n ≠ 0) (b : Block)
    (k : Key) : InCommand (r.acceptRounds op n b k) n.toNat (cipherRounds op b k n.toNat) :=
  ⟨rfl, acceptRounds_inv r op hn b k, rfl, pendingResult_acceptRounds r op hn b k⟩

section Running

variable {W c : Nat} {r : Registers W} {result : Block}

/-- R21: while at least one more round follows, the next index fits `idx_r`, so no free value is drawn. -/
theorem InCommand.toNat_nextIndex (h : InCommand r (c + 2) result) (e : Nat) :
    (nextIndex e r.opR r.idxR).toNat = if r.opR then r.idxR.toNat - 1 else r.idxR.toNat + 1 := by
  have hcount := h.count
  cases hop : r.opR with
  | false =>
    have hindex := h.inv.encrypt_index h.running hop
    rw [Config.maxRounds] at hindex
    rw [nextIndex_up e (by omega), if_neg Bool.false_ne_true]
  | true =>
    have hindex := h.inv.decrypt_index h.running hop
    have hdown := nextIndex_down e (ne_zero_of_toNat_pos (c := r.idxR) (by omega))
    rw [if_pos rfl]
    omega

theorem InCommand.toNat_nextCount (h : InCommand r (c + 2) result) (e : Nat) : (nextCount e r.cntR).toNat = c + 1 := by
  have hcount := h.count
  have hdown := nextCount_toNat e (ne_zero_of_toNat_pos (c := r.cntR) (by omega))
  omega

/-- R77: an inner round performs one of the rounds ahead and changes nothing of what they lead to. -/
theorem InCommand.innerRound (h : InCommand r (c + 2) result) (e : Nat) : InCommand (r.innerRound e) (c + 1) result := by
  have hcount := h.count
  obtain ⟨-, hmax⟩ := h.inv.running_count h.running
  refine ⟨h.running, ⟨fun hidle => ?_, fun _ => ?_, fun _ => h.inv.running_flags h.running, fun _ (hop : r.opR = false) => ?_,
    fun _ (hop : r.opR = true) => ?_, h.inv.error_done⟩, h.toNat_nextCount e, ?_⟩
  · exact absurd (h.running.symm.trans hidle) Bool.true_eq_false.mp
  · rw [innerRound_cntR, h.toNat_nextCount]
    omega
  · have hindex := h.inv.encrypt_index h.running hop
    rw [innerRound_idxR, innerRound_cntR, h.toNat_nextIndex, h.toNat_nextCount, hop, if_neg Bool.false_ne_true]
    omega
  · have hindex := h.inv.decrypt_index h.running hop
    rw [innerRound_idxR, innerRound_cntR, h.toNat_nextIndex, h.toNat_nextCount, hop, if_pos rfl]
    omega
  · rw [← h.pending, pendingResult, pendingResult, innerRound_idxR, innerRound_cntR, h.toNat_nextIndex, h.toNat_nextCount,
      hcount, remainingRounds_succ]
    rfl

/-- R78: the last of the rounds ahead gives the result. -/
theorem InCommand.roundOut (h : InCommand r 1 result) : r.roundOut = result := by
  rw [← h.pending, pendingResult, h.count, remainingRounds_one]
  rfl

/-- The final round is the one with one round ahead: a running command has a `cnt_r` wide enough to hold 1. -/
theorem InCommand.cntR_eq_one_iff (h : InCommand r c result) : r.cntR = 1 ↔ c = 1 := by
  obtain ⟨hpos, -⟩ := h.inv.running_count h.running
  have hlt := r.cntR.isLt
  have hone : (1 : BitVec (W - 1)).toNat = 1 := Nat.mod_eq_of_lt (show 1 < 2 ^ (W - 1) by omega)
  rw [← BitVec.toNat_inj, h.count, hone]

variable {p : Ports W} (hrst : p.rst = false)
include hrst

theorem InCommand.datapathStep_inner (h : InCommand r (c + 2) result) (e : Nat) :
    InCommand (datapathStep e p r) (c + 1) result := by
  have hne : r.cntR ≠ 1 := fun h1 => absurd (h.cntR_eq_one_iff.mp h1) (by omega)
  rw [datapathStep_of_running e hrst h.running, round_inner r e hne]
  exact h.innerRound e

theorem InCommand.datapathStep_final (h : InCommand r 1 result) (e : Nat) :
    (datapathStep e p r).outputs = ⟨false, true, false, result⟩ := by
  obtain ⟨-, herr⟩ := h.inv.running_flags h.running
  rw [datapathStep_of_running e hrst h.running, round_final r e (h.cntR_eq_one_iff.mpr rfl), Registers.outputs,
    finalRound_runR, finalRound_doneR, finalRound_errR, finalRound_resR, herr, h.roundOut]

end Running

/-! ## Edges of a machine -/

theorem regsAfter_succ (s : State) (k : Nat) :
    regsAfter s (k + 1) = datapathStep (s.edge + k + 1) (s.portsAt k) (regsAfter s k) := rfl

/-- R84, R86: one edge a round, and the last of them completes the command, whatever the inputs but `rst`. -/
theorem InCommand.outputs_at_completion {s : State} {result : Block} {c k : Nat}
    (h : InCommand (regsAfter s k) (c + 1) result) (hrst : ∀ j, j ≤ c → (s.portsAt (k + j)).rst = false) :
    (regsAfter s (k + (c + 1))).outputs = ⟨false, true, false, result⟩ := by
  have hrst0 := hrst 0 (Nat.zero_le c)
  rw [Nat.add_zero] at hrst0
  induction c generalizing k with
  | zero => exact h.datapathStep_final hrst0 _
  | succ c ih =>
    have hinner : InCommand (regsAfter s (k + 1)) (c + 1) result := h.datapathStep_inner hrst0 _
    have hlater (j : Nat) (hj : j ≤ c) : (s.portsAt (k + 1 + j)).rst = false := by
      rw [Nat.add_right_comm]
      exact hrst (j + 1) (Nat.succ_le_succ hj)
    rw [Nat.add_comm (c + 1) 1, ← Nat.add_assoc]
    exact ih hinner hlater (hlater 0 (Nat.zero_le c))

/-- A count that is not negative is the number in the count field (R43, R51). -/
theorem countField_toNat_of_sint_eq {W n : Nat} {p : Ports W} (h : sint p.roundsIn = n) : p.countField.toNat = n := by
  have hmsb : p.roundsIn.msb = false := by
    rw [← Bool.not_eq_true, ← sint_neg_iff, h]
    exact (Int.natCast_nonneg n).not_gt
  rw [sint_of_not_msb hmsb] at h
  rw [countField_toNat hmsb]
  exact_mod_cast h

theorem countField_ne_zero_of_sint_eq {W n : Nat} {p : Ports W} (h : sint p.roundsIn = n) (hpos : 1 ≤ n) :
    p.countField ≠ 0 :=
  ne_zero_of_toNat_pos (by rwa [countField_toNat_of_sint_eq h])

/-- R81, R82: an idle edge with a start of `n >= 1` rounds begins the command sampled there. -/
theorem datapathStep_begins_command {W n : Nat} (e : Nat) {p : Ports W} {r : Registers W} (hrst : p.rst = false)
    (hidle : r.runR = false) (hstart : p.start = true) (hcount : sint p.roundsIn = n) (hpos : 1 ≤ n) :
    InCommand (datapathStep e p r) n (cipherRounds p.op p.blockIn p.keyIn n) := by
  have hn := countField_toNat_of_sint_eq hcount
  rw [datapathStep_of_start_pos e hrst hidle hstart (by omega)]
  have h := acceptRounds_inCommand r p.op (countField_ne_zero_of_sint_eq hcount hpos) p.blockIn p.keyIn
  rwa [hn] at h

end Sys2Proof.Proofs

/-! # A start held high (70_reset_and_hazards.md R107) -/

namespace Sys2Proof.Proofs

open Sys2Proof Sys2Proof.Machine Sys2Proof.Laws

/-- Inputs that leave the registers as one edge of them left them keep doing so while they are held. -/
theorem regsAfter_of_held {s : State} {p : Ports s.roundsW} {r : Registers s.roundsW} (m : Nat)
    (hfirst : ∀ e, datapathStep e p s.regs = r) (hkeep : ∀ e, datapathStep e p r = r)
    (hheld : ∀ j, j < m + 1 → s.portsAt j = p) : regsAfter s (m + 1) = r := by
  induction m with
  | zero => rw [regsAfter_succ, hheld 0 Nat.one_pos, regsAfter, hfirst]
  | succ m ih =>
    rw [regsAfter_succ, hheld (m + 1) (Nat.lt_succ_self _), ih fun j hj => hheld j (Nat.lt_succ_of_lt hj), hkeep]

theorem after_becomes_of_held {s : State} {p : Ports s.roundsW} {r : Registers s.roundsW}
    (hfirst : ∀ e, datapathStep e p s.regs = r) (hkeep : ∀ e, datapathStep e p r = r) (m : Nat) (hm : 1 ≤ m)
    (hheld : ∀ j, j < m → s.portsAt j = p) : ∃ t, s.after m = .next t ∧ s.Becomes r t := by
  obtain ⟨k, rfl⟩ := Nat.exists_eq_add_of_le' hm
  exact ⟨_, after_eq s (k + 1), s.script.drop (k + 1), s.edge + (k + 1), by rw [regsAfter_of_held k hfirst hkeep hheld]⟩

/-- A positive count: the edge after the completion is an idle edge, so it accepts the command again. -/
theorem held_start_is_accepted_again {s : State} {p : Ports s.roundsW} {n : Nat} (hidle : s.regs.runR = false)
    (hstart : p.start = true) (hrst : p.rst = false) (hcount : sint p.roundsIn = n) (hpos : 1 ≤ n)
    (hheld : ∀ j, j ≤ n + 1 → s.portsAt j = p) :
    (regsAfter s (n + 1)).outputs = ⟨false, true, false, cipherRounds p.op p.blockIn p.keyIn n⟩ ∧
    regsAfter s (n + 2) = (regsAfter s (n + 1)).acceptRounds p.op p.countField p.blockIn p.keyIn := by
  have hbegun : InCommand (regsAfter s 1) n (cipherRounds p.op p.blockIn p.keyIn n) := by
    rw [regsAfter_succ, hheld 0 (Nat.zero_le _)]
    exact datapathStep_begins_command _ hrst hidle hstart hcount hpos
  obtain ⟨c, rfl⟩ := Nat.exists_eq_add_of_le' hpos
  have hdone := hbegun.outputs_at_completion fun j hj => by rwa [hheld (1 + j) (by omega)]
  rw [Nat.add_comm 1 (c + 1)] at hdone
  have hidle' : (regsAfter s (c + 1 + 1)).runR = false := congrArg Outputs.busy hdone
  refine ⟨hdone, ?_⟩
  rw [regsAfter_succ s (c + 1 + 1), hheld _ le_rfl, datapathStep_of_start_pos _ hrst hidle' hstart (by omega)]

/-- Settles O46: a positive count completes idle and so starts over; the accept of a zero or negative count leaves the machine idle
and does nothing more when it is repeated. -/
theorem heldStartRepeatsTheCommand : Obligations.HeldStartRepeatsTheCommand := by
  intro s p hidle hstart hrst
  refine ⟨fun n hcount hpos hheld => ?_, fun hcount => ?_⟩
  · obtain ⟨hdone, hagain⟩ := held_start_is_accepted_again hidle hstart hrst hcount hpos hheld
    refine ⟨_, _, after_eq s (n + 1), after_eq s (n + 2), hdone, ?_⟩
    have hresult : (regsAfter s (n + 1)).resR = cipherRounds p.op p.blockIn p.keyIn n := congrArg Outputs.resultOut hdone
    have hfield := countField_toNat_of_sint_eq hcount
    rw [hagain]
    simp [State.outputs, Registers.outputs, hresult, hfield]
  · obtain hneg | hzero := hcount.lt_or_eq
    · refine ⟨s.regs.inputError, ?_, after_becomes_of_held (p := p)
        (fun e => datapathStep_of_start_neg e hrst hidle hstart hneg)
        fun e => datapathStep_of_start_neg e hrst hidle hstart hneg⟩
      simp [Registers.outputs, hidle, hneg]
    · refine ⟨s.regs.acceptZero p.op p.blockIn p.keyIn, ?_, after_becomes_of_held (p := p)
        (fun e => datapathStep_of_start_zero e hrst hidle hstart hzero)
        fun e => datapathStep_of_start_zero e hrst hidle hstart hzero⟩
      simp [Registers.outputs, hidle, hzero]

end Sys2Proof.Proofs

/-! # The register invariants along every run (10_state.md R27, R31) -/

namespace Sys2Proof.Proofs

open Sys2Proof Sys2Proof.Machine Sys2Proof.Laws

theorem reset_inv (W : Nat) : (Registers.reset W).Inv :=
  ⟨fun _ => rfl, nofun, nofun, nofun, nofun, nofun⟩

/-- An idle machine meets the invariants when its count is 0 and an error is a completion. -/
theorem inv_of_idle {W : Nat} {r : Registers W} (hidle : r.runR = false) (hcount : r.cntR = 0)
    (herror : r.errR = true → r.doneR = true) : r.Inv := by
  have hrun : r.runR ≠ true := Bool.eq_false_iff.mp hidle
  exact ⟨fun _ => hcount, fun h => absurd h hrun, fun h => absurd h hrun, fun h => absurd h hrun, fun h => absurd h hrun,
    herror⟩

/-- A running machine that meets the invariants is in a command. -/
theorem inCommand_of_running {W : Nat} {r : Registers W} (hinv : r.Inv) (hrun : r.runR = true) :
    InCommand r r.cntR.toNat (pendingResult r) :=
  ⟨hrun, hinv, rfl, rfl⟩

theorem round_inv {W : Nat} {r : Registers W} (hinv : r.Inv) (hrun : r.runR = true) (e : Nat) : (r.round e).Inv := by
  have hcommand := inCommand_of_running hinv hrun
  obtain ⟨hpos, -⟩ := hinv.running_count hrun
  by_cases hlast : r.cntR = 1
  · rw [round_final r e hlast]
    exact inv_of_idle rfl rfl fun _ => rfl
  · have hne : r.cntR.toNat ≠ 1 := fun h => hlast (hcommand.cntR_eq_one_iff.mpr h)
    obtain ⟨c, hc⟩ := Nat.exists_eq_add_of_le' (show 2 ≤ r.cntR.toNat by omega)
    rw [hc] at hcommand
    rw [round_inner r e hlast]
    exact (hcommand.innerRound e).inv

/-- A start with a positive count has a count field that is not 0 (R49). -/
theorem countField_ne_zero_of_pos {W : Nat} {p : Ports W} (hpos : 0 < sint p.roundsIn) : p.countField ≠ 0 :=
  countField_ne_zero_of_sint_eq (n := (sint p.roundsIn).toNat) (Int.toNat_of_nonneg hpos.le).symm (by omega)

/-- R31, one edge: a case for each arm of R75. -/
theorem datapathStep_inv {W : Nat} {r : Registers W} (hinv : r.Inv) (e : Nat) (p : Ports W) : (datapathStep e p r).Inv := by
  obtain ⟨-, heq⟩ | ⟨-, hrun, heq⟩ | ⟨-, hidle, -, -, heq⟩ | ⟨-, hidle, -, -, heq⟩ | ⟨-, -, -, hpos, heq⟩ | ⟨-, -, -, heq⟩ :=
    datapathStep_cases e p r <;> rw [heq]
  · exact reset_inv W
  · exact round_inv hinv hrun e
  · exact inv_of_idle hidle (hinv.idle_count hidle) fun _ => rfl
  · exact inv_of_idle hidle (hinv.idle_count hidle) fun _ => rfl
  · exact acceptRounds_inv r p.op (countField_ne_zero_of_pos hpos) p.blockIn p.keyIn
  · exact hinv

/-- The invariants hold from the edge on after which they held first. -/
theorem regsAfter_add_inv {s : State} {k : Nat} (hinv : (regsAfter s k).Inv) (m : Nat) : (regsAfter s (k + m)).Inv := by
  induction m with
  | zero => exact hinv
  | succ m ih => exact datapathStep_inv ih _ _

/-- Settles O41: the step is R75's edge on the registers, and each of its arms keeps the invariants. -/
theorem stepKeepsTheInvariants : Obligations.StepKeepsTheInvariants := by
  intro s t hinv hstep
  obtain rfl := (step_next_iff s t).mp hstep
  exact ⟨hinv.width, datapathStep_inv hinv.regs _ _⟩

/-- Settles O40: the reset registers meet the invariants, and RESET leaves them whatever the registers held. -/
theorem invariantsHoldAfterReset : Obligations.InvariantsHoldAfterReset := by
  have hreset (W : Nat) (hW : 2 ≤ W) : (State.resetAt W).Inv := ⟨hW, reset_inv W⟩
  refine ⟨hreset, hreset 8 (by decide), fun s t hW hexec => ?_, fun W hW => ⟨_, rfl, hW, reset_inv W⟩⟩
  obtain rfl : s.setRegs (Registers.reset s.roundsW) = t := Host.Outcome.next.inj hexec
  exact ⟨hW, reset_inv s.roundsW⟩

/-- R27: the invariants leave the four legal combinations of the flags. -/
theorem outputs_legal_of_inv {W : Nat} {r : Registers W} (hinv : r.Inv) : r.outputs.legal := by
  simp only [Outputs.legal, Registers.outputs]
  cases hrun : r.runR with
  | true =>
    obtain ⟨hdone, herr⟩ := hinv.running_flags hrun
    simp [hdone, herr]
  | false =>
    cases herr : r.errR with
    | true => simp [hinv.error_done herr]
    | false => cases r.doneR <;> simp

/-- Settles O42: the invariants hold after every number of edges, and they make the outputs legal. -/
theorem statusCombinationsStayLegal : Obligations.StatusCombinationsStayLegal := by
  intro s t k hinv hafter
  rw [after_eq] at hafter
  obtain rfl := Host.Outcome.next.inj hafter
  have hk := regsAfter_add_inv (k := 0) hinv.regs k
  rw [Nat.zero_add] at hk
  exact outputs_legal_of_inv hk

/-- R108, one edge: of the arms without reset, only a final round and a zero-count accept write `res_r`. -/
theorem datapathStep_valid_of_resR_ne {W : Nat} {r : Registers W} (hinv : r.Inv) (e : Nat) {p : Ports W}
    (hrst : p.rst = false) (hne : (datapathStep e p r).resR ≠ r.resR) :
    (datapathStep e p r).outputs = ⟨false, true, false, (datapathStep e p r).resR⟩ := by
  obtain ⟨hrst', -⟩ | ⟨-, hrun, heq⟩ | ⟨-, -, -, -, heq⟩ | ⟨-, hidle, -, -, heq⟩ | ⟨-, -, -, -, heq⟩ | ⟨-, -, -, heq⟩ :=
    datapathStep_cases e p r
  · exact absurd (hrst.symm.trans hrst') Bool.false_ne_true
  · rw [heq] at hne ⊢
    by_cases hlast : r.cntR = 1
    · obtain ⟨-, herr⟩ := hinv.running_flags hrun
      simp [round_final r e hlast, Registers.outputs, herr]
    · exact absurd (by rw [round_resR, if_neg hlast]) hne
  · exact absurd (by rw [heq, inputError_resR]) hne
  · simp [heq, Registers.outputs, hidle]
  · exact absurd (by rw [heq, acceptRounds_resR]) hne
  · exact absurd (by rw [heq]) hne

/-- Settles O43: an edge that changes `result_out` without a reset is a completion without error. -/
theorem resultChangesOnlyToAValidOne : Obligations.ResultChangesOnlyToAValidOne := by
  intro s t hinv hstep hrst hne
  obtain rfl := (step_next_iff s t).mp hstep
  have hout := datapathStep_valid_of_resR_ne hinv.regs (s.edge + 1) hrst hne
  exact ⟨⟨congrArg Outputs.done hout, congrArg Outputs.error hout⟩, congrArg Outputs.busy hout⟩

end Sys2Proof.Proofs

/-! # The rounds of a command and its result (43_block_cipher_datapath.md R84 to R86) -/

namespace Sys2Proof.Proofs

open Sys2Proof Sys2Proof.Machine Sys2Proof.Laws

/-! ## The order of the rounds -/

/-- The round indices of a command of `n` rounds in the order of its operation (R71, R72). -/
def roundOrder (op : Bool) (n : Nat) : List Nat := if op then (List.range n).reverse else List.range n

/-- The index of the round that follows the first `j` of `n` (R84). -/
def roundIndex (op : Bool) (n j : Nat) : Nat := if op then n - 1 - j else j

theorem getElem?_roundOrder (op : Bool) {n j : Nat} (h : j < n) : (roundOrder op n)[j]? = some (roundIndex op n j) := by
  cases op with
  | false => simp [roundOrder, roundIndex, h]
  | true => simp [roundOrder, roundIndex, h]

theorem take_roundOrder_succ (op : Bool) {n j : Nat} (h : j < n) :
    (roundOrder op n).take (j + 1) = (roundOrder op n).take j ++ [roundIndex op n j] := by
  rw [List.take_add_one, getElem?_roundOrder op h, Option.toList_some]

theorem roundIndex_succ (op : Bool) (n j : Nat) :
    roundIndex op n (j + 1) = if op then roundIndex op n j - 1 else roundIndex op n j + 1 := by
  cases op with
  | false => rfl
  | true => exact (Nat.sub_sub (n - 1) j 1).symm

/-! ## A command after its first rounds -/

/-- The registers after the accept of `p`, a command of `n` rounds, and `j < n` rounds of it, `res` the earlier result. -/
structure AfterRounds {W : Nat} (r : Registers W) (p : Ports W) (n j : Nat) (res : Block) : Prop where
  command : InCommand r (n - j) (cipherRounds p.op p.blockIn p.keyIn n)
  state : r.sR = join (runRounds p.keyIn ((roundOrder p.op n).take j) (split p.blockIn))
  index : r.idxR.toNat = roundIndex p.op n j
  key : r.keyR = p.keyIn
  op : r.opR = p.op
  result : r.resR = res

theorem afterRounds_zero {W n : Nat} (e : Nat) {p : Ports W} {r : Registers W} (hrst : p.rst = false)
    (hidle : r.runR = false) (hstart : p.start = true) (hcount : sint p.roundsIn = n) (hpos : 1 ≤ n) :
    AfterRounds (datapathStep e p r) p n 0 r.resR := by
  have hcommand := datapathStep_begins_command e hrst hidle hstart hcount hpos
  have hfield := countField_toNat_of_sint_eq hcount
  have hne := countField_ne_zero_of_sint_eq hcount hpos
  rw [datapathStep_of_start_pos e hrst hidle hstart (by omega)] at hcommand ⊢
  refine ⟨hcommand, (join_split p.blockIn).symm, ?_, rfl, rfl, rfl⟩
  rw [acceptRounds_idxR]
  cases hop : p.op with
  | false => rfl
  | true =>
    have hindex := firstIndex_decrypt hne
    rw [roundIndex, if_pos rfl]
    omega

/-- R77: an inner round appends the round of the next index. -/
theorem AfterRounds.datapathStep_succ {W n j : Nat} {p : Ports W} {r : Registers W} {res : Block}
    (h : AfterRounds r p n j res) (hj : j + 1 < n) (e : Nat) {q : Ports W} (hrst : q.rst = false) :
    AfterRounds (datapathStep e q r) p n (j + 1) res := by
  have hcommand := h.command
  rw [show n - j = n - (j + 1) - 1 + 2 by omega] at hcommand
  have hnext := hcommand.datapathStep_inner hrst e
  rw [Nat.sub_add_cancel (by omega : 1 ≤ n - (j + 1))] at hnext
  have hne : r.cntR ≠ 1 := fun h1 => absurd (hcommand.cntR_eq_one_iff.mp h1) (by omega)
  rw [datapathStep_of_running e hrst hcommand.running, round_inner r e hne] at hnext ⊢
  refine ⟨hnext, ?_, ?_, h.key, h.op, h.result⟩
  · rw [innerRound_sR, Registers.roundOut, Registers.subkey, roundBlock, h.state, h.key, h.index, split_join,
      take_roundOrder_succ p.op (by omega), runRounds_append_singleton]
  · rw [innerRound_idxR, hcommand.toNat_nextIndex, h.op, h.index, roundIndex_succ]

/-- R84: the accepting edge and `j < n` edges after it, whatever the inputs but `rst`. -/
theorem afterRounds_regsAfter {s : State} {n : Nat} (hidle : s.regs.runR = false) (hstart : (s.portsAt 0).start = true)
    (hcount : sint (s.portsAt 0).roundsIn = n) (j : Nat) (hj : j < n) (hrst : s.noResetFor (j + 1)) :
    AfterRounds (regsAfter s (j + 1)) (s.portsAt 0) n j s.regs.resR := by
  induction j with
  | zero => exact afterRounds_zero _ (hrst 0 Nat.one_pos) hidle hstart hcount hj
  | succ j ih =>
    rw [regsAfter_succ]
    exact (ih (by omega) fun i hi => hrst i (by omega)).datapathStep_succ hj _ (hrst (j + 1) (Nat.lt_succ_self _))

/-- Settles O44: by induction on the rounds, each edge performing the round of the next index of the operation's order. -/
theorem roundsRunOneAnEdgeInOrder : Obligations.RoundsRunOneAnEdgeInOrder := by
  rintro s p n j hidle rfl hstart hcount hj hrst
  have h := afterRounds_regsAfter hidle hstart hcount j hj hrst
  obtain ⟨hdone, herr⟩ := h.command.inv.running_flags h.command.running
  refine ⟨_, after_eq s (j + 1), ?_, h.state, h.command.count, h.index, h.key, h.op⟩
  simp [State.outputs, Registers.outputs, h.command.running, hdone, herr, h.result]

/-- Settles O45: the accept begins the command, its `n`-th edge completes it, and an idle machine's count is 0. -/
theorem commandComputesEncryptOrDecrypt : Obligations.CommandComputesEncryptOrDecrypt := by
  rintro s p n hidle rfl hstart hcount hpos hrst
  have hbegun : InCommand (regsAfter s 1) n _ :=
    datapathStep_begins_command _ (hrst 0 (Nat.succ_pos n)) hidle hstart hcount hpos
  obtain ⟨c, rfl⟩ := Nat.exists_eq_add_of_le' hpos
  have hdone := hbegun.outputs_at_completion fun j hj => hrst (1 + j) (by omega)
  have hidle' : (regsAfter s (1 + (c + 1))).runR = false := congrArg Outputs.busy hdone
  have hinv := regsAfter_add_inv hbegun.inv (c + 1)
  rw [Nat.add_comm 1 (c + 1)] at hdone hidle' hinv
  exact ⟨_, after_eq s (c + 1 + 1), hdone, hinv.idle_count hidle'⟩

/-! ## What an idle machine holds inside (10_state.md R30) -/

/-- Registers that a host cannot tell apart: the same outputs and, while running, the same registers. -/
def Indistinguishable {W : Nat} (r q : Registers W) : Prop := r.outputs = q.outputs ∧ (r.runR = true → q = r)

theorem alikeWith_iff (s : State) (r : Registers s.roundsW) : s.AlikeWith r ↔ Indistinguishable s.regs r :=
  ⟨fun h => ⟨h.outputs, h.running⟩, fun h => ⟨h.1, h.2⟩⟩

theorem Indistinguishable.refl {W : Nat} (r : Registers W) : Indistinguishable r r := ⟨rfl, fun _ => rfl⟩

theorem datapathStep_indistinguishable {W : Nat} {r q : Registers W} (h : Indistinguishable r q) (e : Nat) (p : Ports W) :
    Indistinguishable (datapathStep e p r) (datapathStep e p q) := by
  obtain ⟨hout, hrunning⟩ := h
  cases hrun : r.runR with
  | true =>
    rw [hrunning hrun]
    exact .refl _
  | false =>
    have hrunq : q.runR = false := (congrArg Outputs.busy hout).symm.trans hrun
    have hres : r.resR = q.resR := congrArg Outputs.resultOut hout
    obtain ⟨hrst, heq⟩ | ⟨-, hrun', -⟩ | ⟨hrst, -, hstart, hneg, heq⟩ | ⟨hrst, -, hstart, hzero, heq⟩ |
      ⟨hrst, -, hstart, hpos, heq⟩ | ⟨hrst, -, hstart, heq⟩ := datapathStep_cases e p r
    · rw [heq, datapathStep_of_rst e hrst]
      exact .refl _
    · exact absurd (hrun.symm.trans hrun') Bool.false_ne_true
    · rw [heq, datapathStep_of_start_neg e hrst hrunq hstart hneg]
      simp [Indistinguishable, Registers.outputs, hrun, hrunq, hres]
    · rw [heq, datapathStep_of_start_zero e hrst hrunq hstart hzero]
      simp [Indistinguishable, Registers.outputs, hrun, hrunq]
    · have hsame : q.acceptRounds p.op p.countField p.blockIn p.keyIn = r.acceptRounds p.op p.countField p.blockIn p.keyIn := by
        rw [Registers.acceptRounds, Registers.acceptRounds, Registers.flagRunning, Registers.flagRunning, Registers.capture,
          Registers.capture, hres]
      rw [heq, datapathStep_of_start_pos e hrst hrunq hstart hpos, hsame]
      exact .refl _
    · rw [heq, datapathStep_of_no_start e hrst hrunq hstart]
      exact ⟨hout, hrunning⟩

theorem regsAfter_indistinguishable {s : State} {r : Registers s.roundsW} (h : Indistinguishable s.regs r) (k : Nat) :
    Indistinguishable (regsAfter s k) (regsAfter (s.setRegs r) k) := by
  induction k with
  | zero => exact h
  | succ k ih => exact datapathStep_indistinguishable ih _ _

/-- Settles O48: being alike is kept by every edge, the two machines being given the same inputs. -/
theorem idleHiddenRegistersNeverShow : Obligations.IdleHiddenRegistersNeverShow := by
  intro s r k halike
  obtain ⟨hout, -⟩ := regsAfter_indistinguishable ((alikeWith_iff s r).mp halike) k
  exact ⟨_, _, after_eq s k, after_eq (s.setRegs r) k, hout⟩

end Sys2Proof.Proofs

/-! # The decoder undoes the encoder (30_encoding.md R43, R48 to R56) -/

namespace Sys2Proof.Proofs

open Sys2Proof Sys2Proof.Machine Sys2Proof.Laws

/-! ## The round count (R43, R51) -/

theorem neg_two_pow_le_sint {W : Nat} (v : BitVec W) : -(2 ^ (W - 1) : Int) ≤ sint v := by
  rw [sint_eq_toInt]
  exact BitVec.le_toInt v

theorem natCast_maxRounds (W : Nat) : (Config.maxRounds W : Int) = 2 ^ (W - 1) - 1 := by
  rw [Config.maxRounds, Nat.cast_sub Nat.one_le_two_pow]
  norm_cast

theorem sint_le_maxRounds {W : Nat} (v : BitVec W) : sint v ≤ Config.maxRounds W := by
  rw [sint_eq_toInt, natCast_maxRounds]
  exact Int.le_sub_one_of_lt BitVec.toInt_lt

theorem countField_le_maxRounds {W : Nat} (p : Ports W) : p.countField.toNat ≤ Config.maxRounds W :=
  Nat.le_sub_one_of_lt p.countField.isLt

/-- Settles O20: `sint` is the library's signed reading, whose sign and range are known, and the count field is R51's. -/
theorem roundCountIsTwosComplement : Obligations.RoundCountIsTwosComplement := by
  intro W _ p
  refine ⟨?_, neg_two_pow_le_sint _, sint_le_maxRounds _, fun hnonneg => ?_⟩
  · rw [sint_neg_iff, BitVec.msb_eq_getLsbD_last]
  · have hn := Int.toNat_of_nonneg hnonneg
    rw [countField_toNat_of_sint_eq hn.symm, hn]

/-- A count that fits `rounds_in` is the signed value of the pattern that stands for it (R43). -/
theorem sint_ofInt {W : Nat} {n : Int} (hW : 2 ≤ W) (hlow : -(2 ^ (W - 1) : Int) ≤ n) (hhigh : n ≤ Config.maxRounds W) :
    sint (BitVec.ofInt W n) = n := by
  have hpow : (2 ^ W : Int) = 2 * 2 ^ (W - 1) := by rw [← Int.pow_succ', Nat.sub_add_cancel (by omega)]
  rw [natCast_maxRounds] at hhigh
  rw [sint_eq_toInt, BitVec.toInt_ofInt]
  exact Int.bmod_eq_of_le_mul_two (by push_cast; omega) (by push_cast; omega)

/-! ## Which instructions have an encoding -/

/-- Exactly the internal functions (R56) and the counts that do not fit `rounds_in` (R43) have none. -/
theorem encode_eq_none_iff (W : Nat) (i : Instr) : encode W i = none ↔ i.row = none ∨ i.wellFormed W = false := by
  unfold encode
  cases hfits : i.wellFormed W with
  | false => simp
  | true => cases i <;> simp [Instr.row]

/-- The instruction of a row, its operands assembled from the ports (R51). -/
def instrOfRow {W : Nat} (p : Ports W) : CtrlRow → Instr
  | .reset => .reset
  | .nop => .nop
  | .encrypt => .encrypt p.countField.toNat p.blockIn p.keyIn
  | .decrypt => .decrypt p.countField.toNat p.blockIn p.keyIn
  | .illegalRounds => .illegalRounds p.op (sint p.roundsIn)
  | .roundStep => .roundStep

theorem decode_eq_instrOfRow {W : Nat} (run : Bool) (p : Ports W) : decode run p = instrOfRow p (p.row run) := rfl

theorem sint_neg_of_row {W : Nat} {run : Bool} {p : Ports W} (h : p.row run = .illegalRounds) : sint p.roundsIn < 0 := by
  have hcondition := (rowCondition_iff_eq_row p (listedWhen_row p run)).mpr rfl
  rw [h] at hcondition
  obtain ⟨-, -, hmsb⟩ := hcondition
  exact sint_of_msb hmsb

theorem wellFormed_decode {W : Nat} (run : Bool) (p : Ports W) : (decode run p).wellFormed W = true := by
  rw [decode_eq_instrOfRow]
  cases hrow : p.row run with
  | reset => rfl
  | nop => rfl
  | encrypt => exact decide_eq_true (countField_le_maxRounds p)
  | decrypt => exact decide_eq_true (countField_le_maxRounds p)
  | illegalRounds => simp [instrOfRow, Instr.wellFormed, neg_two_pow_le_sint, sint_neg_of_row hrow]
  | roundStep => rfl

theorem exists_encode_decode {W : Nat} (run : Bool) (p : Ports W) : ∃ q, encode W (decode run p) = some q := by
  refine Option.ne_none_iff_exists'.mp fun hnone => ?_
  obtain hrow | hfits := (encode_eq_none_iff W _).mp hnone
  · rw [decode_row] at hrow
    cases hrow
  · rw [wellFormed_decode] at hfits
    cases hfits

/-! ## Decoding an encoding -/

/-- The count field of a legal count (R51). -/
theorem countField_ofNat {W n : Nat} (hW : 2 ≤ W) (h : n ≤ Config.maxRounds W) {p : Ports W}
    (hp : p.roundsIn = BitVec.ofNat W n) : p.countField.toNat = n := by
  refine countField_toNat_of_sint_eq ?_
  rw [hp, ← BitVec.ofInt_natCast, sint_ofInt hW ?_ (by exact_mod_cast h)]
  have : (0 : Int) < 2 ^ (W - 1) := by positivity
  omega

/-- The encoding of an instruction selects its row, in the states the row is listed for. -/
theorem row_of_encode {W : Nat} (hW : 2 ≤ W) {i : Instr} {p : Ports W} {run : Bool} {row : CtrlRow}
    (hencode : encode W i = some p) (hrow : i.row = some row) (hlisted : row.listedWhen run = true) : p.row run = row := by
  have hstatement : EncodingRow.Statement i := by
    cases i with
    | reset => exact EncodingRow.reset
    | nop => exact EncodingRow.nop
    | encrypt n block key => exact EncodingRow.encrypt n block key
    | decrypt n block key => exact EncodingRow.decrypt n block key
    | illegalRounds op n => exact EncodingRow.illegalRounds op n
    | roundStep => exact EncodingRow.roundStep
    | f w => exact EncodingRow.f w
    | roundKey key i => exact EncodingRow.roundKey key i
    | round x k => exact EncodingRow.round x k
  exact hstatement.1 W p row run hW hencode hrow hlisted

theorem decode_encode {W : Nat} (hW : 2 ≤ W) {i : Instr} {p : Ports W} {run : Bool} {row : CtrlRow}
    (hencode : encode W i = some p) (hrow : i.row = some row) (hlisted : row.listedWhen run = true) : decode run p = i := by
  rw [decode_eq_instrOfRow, row_of_encode hW hencode hrow hlisted]
  cases i with
  | reset => cases hrow; rfl
  | nop => cases hrow; rfl
  | encrypt n block key =>
    cases hrow
    obtain ⟨hn, rfl⟩ := encode_legal (op := false) hencode
    exact congrArg (Instr.encrypt · block key) (countField_ofNat hW hn rfl)
  | decrypt n block key =>
    cases hrow
    obtain ⟨hn, rfl⟩ := encode_legal (op := true) hencode
    exact congrArg (Instr.decrypt · block key) (countField_ofNat hW hn rfl)
  | illegalRounds op n =>
    cases hrow
    obtain ⟨⟨hlow, hneg⟩, rfl⟩ := encode_illegal hencode
    exact congrArg (Instr.illegalRounds op) (sint_ofInt hW hlow (hneg.le.trans (Int.natCast_nonneg _)))
  | roundStep => cases hrow; rfl
  | f w => cases hrow
  | roundKey key i => cases hrow
  | round x k => cases hrow

/-- Settles O17: an encoding selects its instruction's row and holds its operands; a decoded instruction has an encoding, which
decodes to it since its row is listed for `run_r`. -/
theorem decodeOfEncodeIsTheInstruction : Obligations.DecodeOfEncodeIsTheInstruction := by
  refine fun W hW => ⟨fun _ _ _ _ => decode_encode hW, fun p run => ?_, encode_eq_none_iff W⟩
  obtain ⟨q, hq⟩ := exists_encode_decode run p
  exact ⟨q, hq, decode_encode hW hq (decode_row run p) (listedWhen_row p run)⟩

/-! ## The opcode table's numbering (log 10) -/

theorem le_ctrlBits (W : Nat) : W + 3 ≤ ctrlBits W := by
  rw [ctrlBits]
  omega

/-- A number with `low` in its low `c` bits and `high` above them: what lies below and above bit `c`. -/
theorem add_mul_two_pow_mod {low c : Nat} (hlow : low < 2 ^ c) (high : Nat) : (low + high * 2 ^ c) % 2 ^ c = low := by
  rw [Nat.add_mul_mod_self_right, Nat.mod_eq_of_lt hlow]

theorem add_mul_two_pow_div {low c : Nat} (hlow : low < 2 ^ c) (high : Nat) : (low + high * 2 ^ c) / 2 ^ c = high := by
  rw [Nat.add_mul_div_right _ _ (Nat.two_pow_pos c), Nat.div_eq_of_lt hlow, Nat.zero_add]

/-- The number that holds the ports of an edge: `CTRL`, then the data (log 10). -/
def tableNumber {W : Nat} (p : Ports W) : Nat :=
  p.ctrl.toNat + (p.blockIn.toNat + p.keyIn.toNat * 2 ^ 64) * 2 ^ ctrlBits W

theorem ctrl_lt_two_pow_ctrlBits {W : Nat} (p : Ports W) : p.ctrl.toNat < 2 ^ ctrlBits W :=
  p.ctrl.isLt.trans_le (Nat.pow_le_pow_right (by decide) (le_ctrlBits W))

theorem tableNumber_mod {W : Nat} (p : Ports W) : tableNumber p % 2 ^ ctrlBits W = p.ctrl.toNat :=
  add_mul_two_pow_mod (ctrl_lt_two_pow_ctrlBits p) _

theorem tableNumber_div {W : Nat} (p : Ports W) :
    tableNumber p / 2 ^ ctrlBits W = p.blockIn.toNat + p.keyIn.toNat * 2 ^ 64 :=
  add_mul_two_pow_div (ctrl_lt_two_pow_ctrlBits p) _

theorem tableNumber_lt {W : Nat} (p : Ports W) : tableNumber p < 2 ^ (ctrlBits W + 128) := by
  have hblock := p.blockIn.isLt
  have hkey := p.keyIn.isLt
  rw [Nat.pow_add, Nat.mul_comm, ← Nat.div_lt_iff_lt_mul (Nat.two_pow_pos _), tableNumber_div]
  omega

/-- Each field is read back from its place, wherever the number is given enough bits. -/
theorem portsOfTableBits_tableNumber {W nbits : Nat} (p : Ports W) (h : tableNumber p < 2 ^ nbits) :
    portsOfTableBits W nbits (tableNumber p) = .ok p := by
  have hctrl : BitVec.ofNat (W + 3) (tableNumber p) = p.ctrl := by
    refine BitVec.eq_of_toNat_eq ?_
    rw [BitVec.toNat_ofNat, ← Nat.mod_mod_of_dvd _ (Nat.pow_dvd_pow 2 (le_ctrlBits W)), tableNumber_mod,
      Nat.mod_eq_of_lt p.ctrl.isLt]
  have hblock : BitVec.ofNat 64 (tableNumber p / 2 ^ ctrlBits W) = p.blockIn := by
    refine BitVec.eq_of_toNat_eq ?_
    rw [BitVec.toNat_ofNat, tableNumber_div, add_mul_two_pow_mod p.blockIn.isLt]
  have hkey : BitVec.ofNat 64 (tableNumber p / 2 ^ (ctrlBits W + 64)) = p.keyIn := by
    refine BitVec.eq_of_toNat_eq ?_
    rw [BitVec.toNat_ofNat, Nat.pow_add, ← Nat.div_div_eq_div_mul, tableNumber_div, add_mul_two_pow_div p.blockIn.isLt,
      Nat.mod_eq_of_lt p.keyIn.isLt]
  have hctrlFits : ¬ p.ctrl.toNat ≥ 2 ^ (W + 3) := Nat.not_le.mpr p.ctrl.isLt
  have hfits : ¬ tableNumber p ≥ 2 ^ (ctrlBits W + 128) := Nat.not_le.mpr (tableNumber_lt p)
  rw [portsOfTableBits, Nat.mod_eq_of_lt h, tableNumber_mod, if_neg hctrlFits, if_neg hfits, hctrl, hblock, hkey, ofCtrl_ctrl]

theorem decodeTableBits_tableNumber {W nbits : Nat} (p : Ports W) (h : tableNumber p < 2 ^ nbits) :
    decodeTableBits W nbits (tableNumber p) = some (decode false p) := by
  rw [decodeTableBits, portsOfTableBits_tableNumber p h]

/-- Settles O19: the two numbers hold the ports, and those ports with data 0, in their places. -/
theorem tableBitsDecodeAsThePortsTheyHold : Obligations.TableBitsDecodeAsThePortsTheyHold := by
  intro W p
  constructor
  · have hnumber : p.ctrl.toNat + p.blockIn.toNat * 2 ^ ctrlBits W + p.keyIn.toNat * 2 ^ (ctrlBits W + 64) =
        tableNumber p := by
      rw [tableNumber, Nat.pow_add]
      ring
    rw [hnumber]
    exact decodeTableBits_tableNumber p (tableNumber_lt p)
  · have hnumber : p.ctrl.toNat = tableNumber { p with blockIn := 0, keyIn := 0 } := by
      simp [tableNumber, Ports.ctrl]
    rw [hnumber]
    exact decodeTableBits_tableNumber _ (hnumber ▸ ctrl_lt_two_pow_ctrlBits p)

/-- Settles O18: the seven words, evaluated. -/
theorem wordsOfTheSpecDecodeToTheirLines : Obligations.WordsOfTheSpecDecodeToTheirLines :=
  ⟨by decide, by decide, by decide, by decide, by decide, by decide, by decide⟩

end Sys2Proof.Proofs

/-! # What the sub-blocks keep and lose (40_word_transform_f.md R58, 41_key_schedule.md R62, 42_round_function.md R67) -/

namespace Sys2Proof.Proofs

open Sys2Proof Sys2Proof.Machine Sys2Proof.Laws

/-! ## F (R58) -/

/-- A mask of `k` ones from bit `j` on keeps those bits in their places. -/
theorem and_mask_eq (n k j : Nat) : n &&& (2 ^ k - 1) * 2 ^ j = n / 2 ^ j % 2 ^ k * 2 ^ j := by
  refine Nat.eq_of_testBit_eq fun b => ?_
  rw [Nat.testBit_and, Nat.testBit_mul_two_pow, Nat.testBit_mul_two_pow, Nat.testBit_two_pow_sub_one, Nat.testBit_mod_two_pow,
    Nat.testBit_div_two_pow]
  by_cases hj : j ≤ b
  · rw [Nat.sub_add_cancel hj, decide_eq_true hj, Bool.true_and, Bool.true_and, Bool.and_comm]
  · simp [hj]

/-- F keeps the high byte and `w[7:3]`: together they are the bits 15:3. -/
theorem wordTransformF_eq_iff (v w : Word) : wordTransformF v = wordTransformF w ↔ v >>> 3 = w >>> 3 := by
  refine ⟨fun h => BitVec.eq_of_toNat_eq ?_, wordTransformF_congr⟩
  have hv := v.isLt
  have hw := w.isLt
  have hnum := congrArg BitVec.toNat h
  rw [toNat_wordTransformF, toNat_wordTransformF] at hnum
  rw [BitVec.toNat_ushiftRight, BitVec.toNat_ushiftRight, Nat.shiftRight_eq_div_pow, Nat.shiftRight_eq_div_pow]
  omega

theorem and_0x00E0_eq_zero_iff (y : Word) : y &&& 0x00E0 = 0 ↔ y.toNat / 32 % 8 = 0 := by
  have hmask : (y &&& 0x00E0).toNat = y.toNat / 32 % 8 * 32 := and_mask_eq y.toNat 3 5
  rw [← BitVec.toNat_inj, hmask, BitVec.ofNat_eq_ofNat, BitVec.toNat_zero]
  omega

/-- A value with bits 7:5 zero is that of the word with the inverted high byte and bits 4:0 three places up. -/
theorem exists_wordTransformF_eq_iff (y : Word) : (∃ w, wordTransformF w = y) ↔ y &&& 0x00E0 = 0 := by
  have hy := y.isLt
  rw [and_0x00E0_eq_zero_iff]
  constructor
  · rintro ⟨w, rfl⟩
    rw [toNat_wordTransformF]
    omega
  · intro hzero
    refine ⟨BitVec.ofNat 16 ((255 - y.toNat / 256) * 256 + y.toNat % 32 * 8), BitVec.eq_of_toNat_eq ?_⟩
    rw [toNat_wordTransformF, BitVec.toNat_ofNat]
    omega

theorem wordTransformF_twice (w : Word) :
    wordTransformF (wordTransformF w) = (w &&& (0xFF00 : Word)) ||| ((w &&& 0x00FF) >>> 6) := by
  have hw := w.isLt
  have hhigh : (w &&& 0xFF00).toNat = (w.toNat / 256) <<< 8 := by
    have hmask : (w &&& 0xFF00).toNat = w.toNat / 256 % 256 * 256 := and_mask_eq w.toNat 8 8
    rw [hmask, Nat.shiftLeft_eq]
    omega
  have hlow : ((w &&& 0x00FF) >>> 6).toNat = w.toNat % 256 / 64 := by
    rw [BitVec.toNat_ushiftRight, toNat_and_0xFF, Nat.shiftRight_eq_div_pow]
  refine BitVec.eq_of_toNat_eq ?_
  rw [BitVec.toNat_or, hhigh, hlow, ← Nat.shiftLeft_add_eq_or_of_lt (by omega), Nat.shiftLeft_eq, toNat_wordTransformF,
    toNat_wordTransformF]
  omega

/-- Settles O2: the three properties of F, read off its number. -/
theorem wordTransformLosesExactlyThreeBits : Obligations.WordTransformLosesExactlyThreeBits :=
  ⟨wordTransformF_eq_iff, exists_wordTransformF_eq_iff, wordTransformF_twice⟩

/-! ## round_key (R62) -/

/-- R61 for a shift truncated to the width of `L`: no bit below the top of the window is lost while the window is in `L`. -/
theorem getLsbD_truncated_shift {v : Nat} (hv : 32 ≤ v) (L : BitVec v) (i : Nat) {j : Nat} (hj : j < 16) :
    (((~~~L <<< (2 * i)) >>> 16).setWidth 16).getLsbD j =
      if 2 * i ≤ j + 16 then !L.getLsbD (j + 16 - 2 * i) else false := by
  have hin : j + 16 < v := by omega
  have hpos : j + 16 - 2 * i < v := by omega
  rw [BitVec.getLsbD_setWidth, BitVec.getLsbD_ushiftRight, BitVec.getLsbD_shiftLeft, BitVec.getLsbD_not, Nat.add_comm 16 j]
  by_cases hle : 2 * i ≤ j + 16
  · simp [hj, hin, hpos, hle, Nat.not_lt.mpr hle]
  · simp [hle, Nat.lt_of_not_le hle]

/-- Settles O5: each bit of the truncated shifts is the bit of R61. -/
theorem shiftWidthDoesNotChangeTheSubkey : Obligations.ShiftWidthDoesNotChangeTheSubkey := by
  intro K i
  constructor
  · refine BitVec.eq_of_getLsbD_eq fun j hj => ?_
    rw [getLsbD_roundKey K i hj, getLsbD_truncated_shift (by decide) K i hj]
  · refine BitVec.eq_of_getLsbD_eq fun j hj => ?_
    rw [getLsbD_roundKey K i hj, getLsbD_truncated_shift (by decide) _ i hj, BitVec.getLsbD_setWidth,
      decide_eq_true (by omega : j + 16 - 2 * i < 32), Bool.true_and]

/-! ## round (R67) -/

/-- `y0` depends on `x1` and `x3` through their XOR. -/
theorem roundFunction_x0 (X : Words) (k : Word) : (roundFunction X k).x0 = X.x0 ^^^ (X.x1 ^^^ X.x3) ^^^ k := by
  rw [roundFunction_eq, BitVec.xor_assoc, BitVec.xor_assoc, BitVec.xor_assoc]

/-- Settles O8: `y2` and `y3` give `x0` and `x2`, and then `y0` gives `x1 ^ x3`. -/
theorem roundMergesExactlyX1AndX3 : Obligations.RoundMergesExactlyX1AndX3 := by
  intro X Y k
  constructor
  · intro h
    have h0 : X.x0 = Y.x0 := congrArg Words.x2 h
    have h2 : X.x2 = Y.x2 := congrArg Words.x3 h
    have hy0 := congrArg Words.x0 h
    rw [roundFunction_x0, roundFunction_x0, h0, BitVec.xor_left_inj, BitVec.xor_right_inj] at hy0
    exact ⟨h0, h2, hy0⟩
  · rintro ⟨h0, h2, h13⟩
    have hy0 : (roundFunction X k).x0 = (roundFunction Y k).x0 := by rw [roundFunction_x0, roundFunction_x0, h0, h13]
    rw [roundFunction_eq, roundFunction_eq, Words.mk.injEq]
    exact ⟨hy0, congrArg wordTransformF h2, h0, h2⟩

/-- Settles O7: each of the three rows answers its sub-block's output in the read-out. -/
theorem subBlockRowsReadOutTheirFunctions : Obligations.SubBlockRowsReadOutTheirFunctions :=
  fun _ => ⟨fun _ => rfl, fun _ _ => rfl, fun _ _ _ _ _ => rfl⟩

end Sys2Proof.Proofs

/-! # What a command's result depends on (41_key_schedule.md R64, 43_block_cipher_datapath.md R70, R85) -/

namespace Sys2Proof.Proofs

open Sys2Proof Sys2Proof.Machine Sys2Proof.Laws

/-- Settles O10: the words of a block are its digits in base `2^16`, so they and the block determine each other. -/
theorem splitAndJoinAreInverse : Obligations.SplitAndJoinAreInverse := ⟨join_split, split_join⟩

/-- The rounds read the key through its subkeys only. -/
theorem runRounds_congr {K L : Key} {is : List Nat} (h : ∀ i ∈ is, roundKey K i = roundKey L i) (X : Words) :
    runRounds K is X = runRounds L is X :=
  List.foldl_ext _ _ X fun Y i hi => by rw [h i hi]

theorem cipherRounds_congr {K L : Key} (h : ∀ i, roundKey K i = roundKey L i) (op : Bool) (b : Block) (n : Nat) :
    cipherRounds op b K n = cipherRounds op b L n := by
  rw [cipherRounds, cipherRounds, decryptRounds, decryptRounds, encryptRounds, encryptRounds, runRounds_congr fun i _ => h i,
    runRounds_congr fun i _ => h i]

/-- Settles O12: no subkey reads the upper half. -/
theorem upperKeyHalfNeverMatters : Obligations.UpperKeyHalfNeverMatters :=
  fun op b K n => cipherRounds_congr (fun i => (roundKey_and_low32 K i).symm) op b n

/-- With one subkey for all rounds only their number matters. -/
theorem runRounds_of_equal_subkeys {K : Key} {k : Word} {is : List Nat} (h : ∀ i ∈ is, roundKey K i = k) (X : Words) :
    runRounds K is X = (fun Y => roundFunction Y k)^[is.length] X := by
  induction is generalizing X with
  | nil => rfl
  | cons i is ih =>
    rw [runRounds_cons, h i List.mem_cons_self, ih fun a ha => h a (List.mem_cons_of_mem i ha), List.length_cons,
      Function.iterate_succ_apply]

/-- Settles O13: the two orders have the same number of rounds. -/
theorem equalSubkeysMakeDecryptEncrypt : Obligations.EqualSubkeysMakeDecryptEncrypt := by
  intro b K n h
  have hup : ∀ i ∈ List.range n, roundKey K i = roundKey K 0 := fun i hi => h i (List.mem_range.mp hi)
  have hdown : ∀ i ∈ (List.range n).reverse, roundKey K i = roundKey K 0 := fun i hi => hup i (List.mem_reverse.mp hi)
  rw [decryptRounds, encryptRounds, runRounds_of_equal_subkeys hup, runRounds_of_equal_subkeys hdown, List.length_reverse]

/-! ## The one-round round trip (R85 item 2) -/

theorem encryptRounds_one (b : Block) (K : Key) : encryptRounds b K 1 = roundBlock b (roundKey K 0) := by
  rw [encryptRounds_succ, encryptRounds_zero]

theorem decryptRounds_one (b : Block) (K : Key) : decryptRounds b K 1 = roundBlock b (roundKey K 0) := by
  rw [decryptRounds_succ, decryptRounds_zero]

theorem join_inj {X Y : Words} : join X = join Y ↔ X = Y :=
  ⟨fun h => by rw [← split_join X, h, split_join], congrArg join⟩

theorem xor_cancel_common {v : Nat} (a b c : BitVec v) : a ^^^ b ^^^ (a ^^^ c) = b ^^^ c := by
  rw [BitVec.xor_comm a b, BitVec.xor_assoc, ← BitVec.xor_assoc a a, BitVec.xor_self, BitVec.zero_xor]

/-- `x3`, `x1` and `x2` are fixed by `x0`; what `y0` then says is a condition on `x0` alone. -/
theorem roundFunction_twice_eq_iff (x0 x1 x2 x3 k : Word) :
    roundFunction (roundFunction ⟨x0, x1, x2, x3⟩ k) k = ⟨x0, x1, x2, x3⟩ ↔
      x3 = x0 ∧ x1 = wordTransformF x0 ∧ x2 = x1 ^^^ k ∧ x0 = k ^^^ wordTransformF (wordTransformF x0 ^^^ k) := by
  simp only [roundFunction_eq, Words.mk.injEq]
  constructor
  · rintro ⟨h0, rfl, h2, rfl⟩
    rw [xor_cancel_common] at h2
    rw [xor_cancel_common x0, h2, xor_cancel_common] at h0
    exact ⟨rfl, rfl, h2.symm, by rw [h2, BitVec.xor_comm, h0]⟩
  · rintro ⟨rfl, rfl, rfl, h0⟩
    refine ⟨?_, rfl, xor_cancel_common _ _ _, rfl⟩
    rw [xor_cancel_common x3, xor_cancel_common, BitVec.xor_comm]
    exact h0.symm

/-- Settles O14: two rounds with the same subkey are the identity on a block exactly under R85's conditions. -/
theorem oneRoundTripHoldsExactlyWhen : Obligations.OneRoundTripHoldsExactlyWhen := by
  refine ⟨fun x0 x1 x2 x3 K => ?_, by decide⟩
  rw [encryptRounds_one, decryptRounds_one, roundBlock, roundBlock, split_join,
    show x0 ++ x1 ++ x2 ++ x3 = join ⟨x0, x1, x2, x3⟩ from rfl, split_join, join_inj]
  exact roundFunction_twice_eq_iff x0 x1 x2 x3 (roundKey K 0)

end Sys2Proof.Proofs

/-! # Every instruction and every edge completes (00_scope.md R8, 60_exceptions.md R90, 30_encoding.md R52) -/

namespace Sys2Proof.Proofs

open Sys2Proof Sys2Proof.Machine Sys2Proof.Laws

/-- Each arm of `exec` answers a next state, of the same `ROUNDS_W`. -/
theorem exec_completes (i : Instr) (s : State) : ∃ t, exec i s = .next t ∧ t.roundsW = s.roundsW := by
  cases i <;> exact ⟨_, rfl, rfl⟩

theorem withFetchWord_of_ok {s : State} {nbits w : Nat} {p : Ports s.roundsW}
    (h : portsOfTableBits s.roundsW nbits w = .ok p) : s.withFetchWord nbits w = { s with script := p :: s.script.tail } := by
  rw [State.withFetchWord, h]

theorem withFetchWord_of_error {s : State} {nbits w : Nat} {x : EncodingError}
    (h : portsOfTableBits s.roundsW nbits w = .error x) : s.withFetchWord nbits w = s := by
  rw [State.withFetchWord, h]

theorem loadScript_of_ok {s : State} {lines : List ScriptLine} {ps : List (Ports s.roundsW)}
    (h : expandScript (s.edge + 1) s.regs lines = .ok ps) : s.loadScript lines = .ok { s with script := ps } := by
  rw [State.loadScript, h]

theorem loadScript_of_error {s : State} {lines : List ScriptLine} {x : ScriptError}
    (h : expandScript (s.edge + 1) s.regs lines = .error x) : s.loadScript lines = .error x := by
  rw [State.loadScript, h]

theorem withFetchWord_roundsW (s : State) (nbits w : Nat) : (s.withFetchWord nbits w).roundsW = s.roundsW := by
  cases h : portsOfTableBits s.roundsW nbits w with
  | ok p => rw [withFetchWord_of_ok h]
  | error x => rw [withFetchWord_of_error h]

theorem loadScript_roundsW {s t : State} {lines : List ScriptLine} (h : s.loadScript lines = .ok t) :
    t.roundsW = s.roundsW := by
  cases hexpand : expandScript (s.edge + 1) s.regs lines with
  | ok ps =>
    rw [loadScript_of_ok hexpand] at h
    cases h
    rfl
  | error x =>
    rw [loadScript_of_error hexpand] at h
    cases h

/-- Settles O32: instructions, edges, words and scripts each answer a machine of the same parameter. -/
theorem roundsWNeverChanges : Obligations.RoundsWNeverChanges := by
  refine ⟨fun i s t hexec => ?_, fun k s t hafter => ?_, withFetchWord_roundsW, fun _ _ _ => loadScript_roundsW,
    resetAt_roundsW, rfl⟩
  · obtain ⟨u, hu, hwidth⟩ := exec_completes i s
    rw [hu] at hexec
    cases hexec
    exact hwidth
  · rw [after_eq] at hafter
    cases hafter
    rfl

/-- Settles O33: an equation for a step and for a run, and a case for each instruction. -/
theorem everyEdgeCompletes : Obligations.EveryEdgeCompletes := by
  refine ⟨fun s => ⟨_, step_eq s⟩, fun i s => ?_, fun s k => ⟨_, after_eq s k⟩⟩
  obtain ⟨t, hexec, -⟩ := exec_completes i s
  exact ⟨t, hexec⟩

/-! ## What a step runs, and what it does not (log 2, 7, 8, 10) -/

/-- Settles O30: the ports are the script's head, and the word of an idle machine is what its table numbering reads. -/
theorem stepRunsTheDecodedInstruction : Obligations.StepRunsTheDecodedInstruction := by
  refine ⟨fun _ => rfl, fun s p rest hscript => portsAt_zero s hscript, fun s nbits w i hidle hdecode => ?_⟩
  rw [decodeTableBits] at hdecode
  cases hports : portsOfTableBits s.roundsW nbits w with
  | ok p =>
    rw [hports] at hdecode
    cases hdecode
    rw [withFetchWord_of_ok hports, step, portsAt_zero _ rfl, hidle]
    rfl
  | error x =>
    rw [hports] at hdecode
    cases hdecode

/-- Settles O29: a running command edge is the round, whatever the command; an idle ROUND_STEP keeps the registers. -/
theorem commandsOutsideTheirStateAreDropped : Obligations.CommandsOutsideTheirStateAreDropped := by
  refine fun s => ⟨fun hrun => ?_, fun hidle => ?_⟩
  · have hdropped (r : Registers s.roundsW) : Host.Outcome.next (s.commandEdge r) = exec .roundStep s := by
      rw [commandEdge_running s r hrun, exec_roundStep_running hrun]
    exact ⟨hdropped _, fun _ _ _ => hdropped _, fun _ _ _ => hdropped _, fun _ _ => hdropped _⟩
  · rw [exec, execRoundStep, hidle, if_neg Bool.false_ne_true]

/-- Settles O49: the next state keeps the read-out, and its registers and host's side are computed without it. -/
theorem noEdgeTouchesTheReadOut : Obligations.NoEdgeTouchesTheReadOut := by
  intro s t q hstep
  obtain rfl := (step_next_iff s t).mp hstep
  exact ⟨rfl, step_eq { s with probe := q }⟩

end Sys2Proof.Proofs

/-! # What writes `run_r`, `key_r` and `op_r` (10_state.md R17, R19, R20), and the edge after a reset (R102, R105) -/

namespace Sys2Proof.Proofs

open Sys2Proof Sys2Proof.Machine Sys2Proof.Laws

theorem round_runR {W : Nat} {r : Registers W} (hrun : r.runR = true) (e : Nat) :
    (r.round e).runR = decide (r.cntR ≠ 1) := by
  by_cases hc : r.cntR = 1
  · rw [round_final r e hc, finalRound_runR, decide_eq_false (not_not_intro hc)]
  · rw [round_inner r e hc, innerRound_runR, hrun, decide_eq_true hc]

@[simp] theorem round_keyR {W : Nat} (r : Registers W) (e : Nat) : (r.round e).keyR = r.keyR := by
  by_cases hc : r.cntR = 1
  · rw [round_final r e hc, finalRound_keyR]
  · rw [round_inner r e hc, innerRound_keyR]

@[simp] theorem round_opR {W : Nat} (r : Registers W) (e : Nat) : (r.round e).opR = r.opR := by
  by_cases hc : r.cntR = 1
  · rw [round_final r e hc, finalRound_opR]
  · rw [round_inner r e hc, innerRound_opR]

/-- R17: a positive-count accept starts running, the final round and a reset end it. -/
theorem datapathStep_runR {W : Nat} (e : Nat) (p : Ports W) (r : Registers W) :
    (datapathStep e p r).runR =
      (if p.rst then false
       else if r.runR then decide (r.cntR ≠ 1)
       else p.start && decide (0 < sint p.roundsIn)) := by
  obtain ⟨hrst, heq⟩ | ⟨hrst, hrun, heq⟩ | ⟨hrst, hrun, hstart, hneg, heq⟩ | ⟨hrst, hrun, hstart, hzero, heq⟩ |
    ⟨hrst, hrun, hstart, hpos, heq⟩ | ⟨hrst, hrun, hstart, heq⟩ := datapathStep_cases e p r <;> rw [heq]
  · simp [hrst]
  · simp [hrst, hrun, round_runR hrun]
  · simp [hrst, hrun, hneg.le]
  · simp [hrst, hrun, hzero]
  · simp [hrst, hrun, hstart, hpos]
  · simp [hrst, hrun, hstart]

/-- R19, R20: both accepts of a count that is not negative capture the key and the operation. -/
theorem datapathStep_key_op_of_accepts {W : Nat} (e : Nat) {p : Ports W} {r : Registers W} (h : r.acceptsAt p) :
    (datapathStep e p r).keyR = p.keyIn ∧ (datapathStep e p r).opR = p.op := by
  obtain ⟨hidle, hrst, hstart, hnonneg⟩ := h
  obtain hpos | hzero := hnonneg.lt_or_eq
  · rw [datapathStep_of_start_pos e hrst hidle hstart hpos]
    exact ⟨rfl, rfl⟩
  · rw [datapathStep_of_start_zero e hrst hidle hstart hzero.symm]
    exact ⟨rfl, rfl⟩

/-- R19, R20: no other edge without reset writes them. -/
theorem datapathStep_key_op_of_not_accepts {W : Nat} (e : Nat) {p : Ports W} {r : Registers W} (hrst : p.rst = false)
    (h : ¬ r.acceptsAt p) : (datapathStep e p r).keyR = r.keyR ∧ (datapathStep e p r).opR = r.opR := by
  obtain ⟨hrst', -⟩ | ⟨-, -, heq⟩ | ⟨-, -, -, -, heq⟩ | ⟨-, hidle, hstart, hzero, -⟩ | ⟨-, hidle, hstart, hpos, -⟩ |
    ⟨-, -, -, heq⟩ := datapathStep_cases e p r
  · exact absurd (hrst.symm.trans hrst') Bool.false_ne_true
  · rw [heq]
    exact ⟨round_keyR r e, round_opR r e⟩
  · rw [heq]
    exact ⟨rfl, rfl⟩
  · exact absurd ⟨hidle, hrst, hstart, hzero.ge⟩ h
  · exact absurd ⟨hidle, hrst, hstart, hpos.le⟩ h
  · rw [heq]
    exact ⟨rfl, rfl⟩

/-- Settles O35: the step is R75's edge on the registers, and that edge writes `run_r` as R17 says. -/
theorem runningStartsAndEndsOnlySo : Obligations.RunningStartsAndEndsOnlySo := by
  intro s t hstep
  obtain rfl := (step_next_iff s t).mp hstep
  exact ⟨datapathStep_runR _ _ _, outputs_busy _⟩

/-- Settles O36: a reset, an accept that captures, and every other edge. -/
theorem keyAndOperationAreCapturedOnlyAtAccepts : Obligations.KeyAndOperationAreCapturedOnlyAtAccepts := by
  intro s t hstep
  obtain rfl := (step_next_iff s t).mp hstep
  refine ⟨fun hrst => ?_, datapathStep_key_op_of_accepts _, datapathStep_key_op_of_not_accepts _⟩
  rw [datapathStep_of_rst _ hrst]
  exact ⟨rfl, rfl⟩

/-- Settles O47: the reset registers are idle, so the start at the next edge is accepted. -/
theorem oneResetEdgeMakesTheMachineReady : Obligations.OneResetEdgeMakesTheMachineReady := by
  intro s hrst0 hrst1 hstart hpos
  have hreset : regsAfter s 1 = Registers.reset s.roundsW := datapathStep_of_rst _ hrst0
  have hready : regsAfter s 2 = (Registers.reset s.roundsW).acceptRounds (s.portsAt 1).op (s.portsAt 1).countField
      (s.portsAt 1).blockIn (s.portsAt 1).keyIn := by
    rw [regsAfter_succ, hreset, datapathStep_of_start_pos _ hrst1 rfl hstart hpos]
  refine ⟨_, _, after_eq s 1, after_eq s 2, ?_, s.script.drop 2, s.edge + 2, by rw [hready]⟩
  rw [State.outputs, hreset]
  rfl

end Sys2Proof.Proofs

/-! # Host scripts (30_encoding.md R54, R55) -/

namespace Sys2Proof.Proofs

open Sys2Proof Sys2Proof.Machine Sys2Proof.Laws

/-! ## The lines (R54) -/

/-- The count of a command line is one that `rounds_in` can hold (R43). -/
def CountFits (W : Nat) (n : Int) : Prop := -(2 ^ (W - 1) : Int) ≤ n ∧ n ≤ Config.maxRounds W

/-- The ports of a command line of `n` rounds. -/
def commandPorts (W : Nat) (op : Bool) (n : Int) (b : Block) (k : Key) : Ports W := ⟨false, true, op, BitVec.ofInt W n, b, k⟩

theorem commandLine_of_fits {W : Nat} {n : Int} (h : CountFits W n) (op : Bool) (b : Block) (k : Key) :
    Ports.commandLine op n b k = .ok (commandPorts W op n b k) := if_pos h

theorem commandLine_of_not_fits {W : Nat} {n : Int} (h : ¬ CountFits W n) (op : Bool) (b : Block) (k : Key) :
    Ports.commandLine (W := W) op n b k = .error .roundsOutOfRange := if_neg h

theorem commandItems_of_fits {W : Nat} {n : Int} (h : CountFits W n) (op : Bool) (b : Block) (k : Key)
    (more : List (ScriptItem W)) : commandItems op n b k more = .ok (.edge (commandPorts W op n b k) :: more) := by
  rw [commandItems, commandLine_of_fits h]

theorem commandItems_of_not_fits {W : Nat} {n : Int} (h : ¬ CountFits W n) (op : Bool) (b : Block) (k : Key)
    (more : List (ScriptItem W)) : commandItems op n b k more = .error .roundsOutOfRange := by
  rw [commandItems, commandLine_of_not_fits h]

/-- Settles O50: a count that fits is driven modulo `2^ROUNDS_W`, which its signed reading undoes; any other is refused. -/
theorem scriptLinesDriveTheirPorts : Obligations.ScriptLinesDriveTheirPorts := by
  refine fun W hW => ⟨rfl, rfl, fun n b k hlow hhigh => ?_, fun n b k hout => ?_⟩
  · have hfits : CountFits W n := ⟨hlow, hhigh⟩
    refine ⟨BitVec.ofInt W n, ?_, sint_ofInt hW hlow hhigh, commandItems_of_fits hfits false b k [],
      commandItems_of_fits hfits true b k []⟩
    have hpow : (0 : Int) < 2 ^ W := by positivity
    rw [BitVec.toNat_ofInt, Int.toNat_of_nonneg (Int.emod_nonneg _ (by exact_mod_cast hpow.ne'))]
    push_cast
    rfl
  · have hfits : ¬ CountFits W n := by
      rintro ⟨hlow, hhigh⟩
      omega
    exact ⟨commandItems_of_not_fits hfits false b k [], commandItems_of_not_fits hfits true b k []⟩

/-! ## The NOPs of a `WAIT` (R55) -/

section Nops

variable {W : Nat} {r : Registers W}

theorem nopsUntilDone_of_done (fuel e : Nat) (h : r.doneR = true) : nopsUntilDone fuel e r = some 0 := by
  cases fuel <;> rw [nopsUntilDone, if_pos h]

theorem nopsUntilDone_zero (e : Nat) (h : r.doneR = false) : nopsUntilDone 0 e r = none := by
  rw [nopsUntilDone, h, if_neg Bool.false_ne_true]

theorem nopsUntilDone_succ (fuel e : Nat) (h : r.doneR = false) :
    nopsUntilDone (fuel + 1) e r = (nopsUntilDone fuel (e + 1) (datapathStep e (Ports.idle W) r)).map (· + 1) := by
  rw [nopsUntilDone, h, if_neg Bool.false_ne_true]

/-- A command with rounds ahead takes one NOP for each (R86). -/
theorem InCommand.nopsUntilDone_eq {c fuel : Nat} {result : Block} (h : InCommand r (c + 1) result) (hfuel : c < fuel)
    (e : Nat) : nopsUntilDone fuel e r = some (c + 1) := by
  induction fuel generalizing r c e with
  | zero => exact absurd hfuel (Nat.not_lt_zero c)
  | succ fuel ih =>
    obtain ⟨hbusy, -⟩ := h.inv.running_flags h.running
    rw [nopsUntilDone_succ fuel e hbusy]
    cases c with
    | zero =>
      have hdone := congrArg Outputs.done (h.datapathStep_final (p := Ports.idle W) rfl e)
      rw [nopsUntilDone_of_done fuel (e + 1) hdone, Option.map_some]
    | succ c =>
      rw [ih (h.datapathStep_inner rfl e) (Nat.lt_of_succ_lt_succ hfuel), Option.map_some]

end Nops

/-- The registers after `j` NOP edges, the first at edge `e`. -/
def afterNops {W : Nat} (e j : Nat) (r : Registers W) : Registers W := datapathRun e (List.replicate j (Ports.idle W)) r

theorem afterNops_succ {W : Nat} (e j : Nat) (r : Registers W) :
    afterNops e (j + 1) r = afterNops (e + 1) j (datapathStep e (Ports.idle W) r) := rfl

/-- The count is that of the first edge after which `done = 1`. -/
theorem nopsUntilDone_eq_some {W fuel e m : Nat} {r : Registers W} (h : nopsUntilDone fuel e r = some m) :
    (∀ j, j < m → (afterNops e j r).doneR = false) ∧ (afterNops e m r).doneR = true := by
  induction fuel generalizing e m r with
  | zero =>
    cases hdone : r.doneR with
    | true =>
      obtain rfl : 0 = m := by rwa [nopsUntilDone_of_done 0 e hdone, Option.some_inj] at h
      exact ⟨nofun, hdone⟩
    | false =>
      rw [nopsUntilDone_zero e hdone] at h
      cases h
  | succ fuel ih =>
    cases hdone : r.doneR with
    | true =>
      obtain rfl : 0 = m := by rwa [nopsUntilDone_of_done _ e hdone, Option.some_inj] at h
      exact ⟨nofun, hdone⟩
    | false =>
      rw [nopsUntilDone_succ fuel e hdone] at h
      obtain ⟨m, hlater, rfl⟩ := Option.map_eq_some_iff.mp h
      obtain ⟨hbefore, hat⟩ := ih hlater
      refine ⟨fun j hj => ?_, hat⟩
      cases j with
      | zero => exact hdone
      | succ j => exact hbefore j (Nat.lt_of_succ_lt_succ hj)

theorem doneR_of_nopsUntilDone_eq_none {W fuel e : Nat} {r : Registers W} (h : nopsUntilDone fuel e r = none) :
    r.doneR = false := by
  by_contra hdone
  rw [nopsUntilDone_of_done fuel e (Bool.eq_true_of_not_eq_false hdone)] at h
  cases h

theorem nopsUntilDone_eq_none {W fuel e : Nat} {r : Registers W} (h : nopsUntilDone fuel e r = none) {j : Nat}
    (hj : j ≤ fuel) : (afterNops e j r).doneR = false := by
  have hdone := doneR_of_nopsUntilDone_eq_none h
  induction j generalizing fuel e r with
  | zero => exact hdone
  | succ j ih =>
    obtain ⟨fuel, rfl⟩ := Nat.exists_eq_add_of_le' (Nat.one_le_of_lt hj)
    rw [nopsUntilDone_succ fuel e hdone, Option.map_eq_none_iff] at h
    rw [afterNops_succ]
    exact ih h (Nat.le_of_succ_le_succ hj) (doneR_of_nopsUntilDone_eq_none h)

/-! ## The edges of a script (R55) -/

section Expand

variable {W e : Nat} {r : Registers W}

theorem scriptItems_single {line : ScriptLine} {items : List (ScriptItem W)} (h : line.items = .ok items) :
    scriptItems [line] = .ok items := by
  simp [scriptItems, h]

theorem expandScript_single {line : ScriptLine} {items : List (ScriptItem W)} (h : line.items = .ok items) :
    expandScript e r [line] = expandItems e r items := by
  rw [expandScript, scriptItems_single h]

theorem expandItems_edge {p : Ports W} {items : List (ScriptItem W)} {ps : List (Ports W)}
    (h : expandItems (e + 1) (datapathStep e p r) items = .ok ps) : expandItems e r (.edge p :: items) = .ok (p :: ps) := by
  rw [expandItems, h]

theorem expandItems_wait {m : Nat} (h : nopsUntilDone (Config.maxRounds W) e r = some m) :
    expandItems e r [.wait] = .ok (List.replicate m (Ports.idle W)) := by
  simp [expandItems, h]

theorem expandItems_wait_never (h : nopsUntilDone (Config.maxRounds W) e r = none) :
    expandItems e r [.wait] = .error .waitNeverEnds := by
  rw [expandItems, h]

theorem expandItems_idle (e : Nat) (r : Registers W) (m : Nat) :
    expandItems e r (List.replicate m (.edge (Ports.idle W))) = .ok (List.replicate m (Ports.idle W)) := by
  induction m generalizing e r with
  | zero => rfl
  | succ m ih => exact expandItems_edge (ih _ _)

/-- A command line presented to an idle datapath is done after one NOP a round, at once for a count of 0 or less. -/
theorem nopsUntilDone_of_command {n : Int} (hW : 2 ≤ W) (hfits : CountFits W n) (hidle : r.runR = false) (op : Bool) (b : Block)
    (k : Key) : nopsUntilDone (Config.maxRounds W) (e + 1) (datapathStep e (commandPorts W op n b k) r) = some n.toNat := by
  obtain ⟨hlow, hhigh⟩ := hfits
  have hcount : sint (commandPorts W op n b k).roundsIn = n := sint_ofInt hW hlow hhigh
  obtain hle | hpos := le_or_gt n 0
  · have hdone : (datapathStep e (commandPorts W op n b k) r).doneR = true := by
      rw [datapathStep_doneR, hcount, hidle, decide_eq_true hle]
      rfl
    rw [nopsUntilDone_of_done _ _ hdone, Int.toNat_of_nonpos hle]
  · obtain ⟨c, rfl⟩ : ∃ c : Nat, n = (c + 1 : Nat) := ⟨n.toNat - 1, by omega⟩
    have hbegun := datapathStep_begins_command e (p := commandPorts W op (c + 1 : Nat) b k) rfl hidle rfl hcount
      (Nat.le_add_left 1 c)
    rw [hbegun.nopsUntilDone_eq (by omega), Int.toNat_natCast]

theorem expandItems_command_wait {n : Int} (hW : 2 ≤ W) (hfits : CountFits W n) (hidle : r.runR = false) (op : Bool)
    (b : Block) (k : Key) :
    expandItems e r [.edge (commandPorts W op n b k), .wait] =
      .ok (commandPorts W op n b k :: List.replicate n.toNat (Ports.idle W)) :=
  expandItems_edge (expandItems_wait (nopsUntilDone_of_command hW hfits hidle op b k))

end Expand

/-- Settles O51: the command line and its `WAIT`, which lasts the command's rounds; `IDLE` has no `WAIT`. -/
theorem waitTakesOneNopARound : Obligations.WaitTakesOneNopARound := by
  intro W e r n b k hW hidle hlow hhigh
  have hfits : CountFits W n := ⟨hlow, hhigh⟩
  refine ⟨?_, ?_, fun m => ?_⟩
  · rw [expandScript_single (line := .encw n b k) (commandItems_of_fits hfits false b k [.wait])]
    exact expandItems_command_wait hW hfits hidle false b k
  · rw [expandScript_single (line := .decw n b k) (commandItems_of_fits hfits true b k [.wait])]
    exact expandItems_command_wait hW hfits hidle true b k
  · rw [expandScript_single rfl]
    exact expandItems_idle e r m

/-! ## The machine on a script -/

theorem datapathRun_append {W : Nat} (e : Nat) (ps qs : List (Ports W)) (r : Registers W) :
    datapathRun e (ps ++ qs) r = datapathRun (e + ps.length) qs (datapathRun e ps r) := by
  induction ps generalizing e r with
  | nil => rfl
  | cons p ps ih =>
    rw [List.cons_append, datapathRun, ih, datapathRun, List.length_cons, Nat.add_assoc, Nat.add_comm 1]

/-- While its script lasts, the machine is the datapath on the script's lines. -/
theorem regsAfter_eq_datapathRun (s : State) {k : Nat} (hk : k ≤ s.script.length) :
    regsAfter s k = datapathRun (s.edge + 1) (s.script.take k) s.regs := by
  induction k with
  | zero => rfl
  | succ k ih =>
    have hport : s.portsAt k = s.script[k] := by rw [State.portsAt, List.getElem?_eq_getElem hk, Option.getD_some]
    rw [regsAfter_succ, ih (Nat.le_of_succ_le hk), hport, List.take_succ_eq_append_getElem hk, datapathRun_append,
      List.length_take_of_le (Nat.le_of_succ_le hk), Nat.add_right_comm]
    rfl

/-- A machine whose script is `n` NOP lines, after `j` of them. -/
theorem after_nops (s : State) {n j : Nat} (hj : j ≤ n) :
    ∃ u, { s with script := List.replicate n (Ports.idle s.roundsW) : State }.after j = .next u ∧
      u.outputs.done = (afterNops (s.edge + 1) j s.regs).doneR := by
  refine ⟨_, after_eq _ j, ?_⟩
  have hregs := regsAfter_eq_datapathRun { s with script := List.replicate n (Ports.idle s.roundsW) } (k := j) (by simpa using hj)
  rw [outputs_done, hregs, List.take_replicate, Nat.min_eq_left hj]
  rfl

theorem loadScript_wait {s : State} {m : Nat} (h : nopsUntilDone (Config.maxRounds s.roundsW) (s.edge + 1) s.regs = some m) :
    s.loadScript [.wait] = .ok { s with script := List.replicate m (Ports.idle s.roundsW) } :=
  loadScript_of_ok ((expandScript_single rfl).trans (expandItems_wait h))

theorem loadScript_wait_never {s : State} (h : nopsUntilDone (Config.maxRounds s.roundsW) (s.edge + 1) s.regs = none) :
    s.loadScript [.wait] = .error .waitNeverEnds :=
  loadScript_of_error ((expandScript_single rfl).trans (expandItems_wait_never h))

/-- Settles O52: the datapath that the expansion follows is the machine on the NOPs it answers. -/
theorem waitMeetsTheStepsDone : Obligations.WaitMeetsTheStepsDone := by
  intro s
  cases hnops : nopsUntilDone (Config.maxRounds s.roundsW) (s.edge + 1) s.regs with
  | some m =>
    rw [loadScript_wait hnops]
    refine ⟨fun t ht => ?_, nofun⟩
    cases ht
    obtain ⟨hbefore, hat⟩ := nopsUntilDone_eq_some hnops
    refine ⟨m, rfl, fun j hj => ?_, ?_⟩
    · obtain ⟨u, hu, hdone⟩ := after_nops s hj.le
      exact ⟨u, hu, hdone.trans (hbefore j hj)⟩
    · obtain ⟨u, hu, hdone⟩ := after_nops s (le_refl m)
      exact ⟨u, hu, hdone.trans hat⟩
  | none =>
    rw [loadScript_wait_never hnops]
    refine ⟨nofun, fun x hx => ?_⟩
    cases hx
    refine ⟨rfl, fun j hj => ?_⟩
    obtain ⟨u, hu, hdone⟩ := after_nops s hj
    exact ⟨u, hu, hdone.trans (nopsUntilDone_eq_none hnops hj)⟩

end Sys2Proof.Proofs
